-- ==== Sys2Proof/Word.lean ====
section
/-! DEFINITION. The word types of the block (00_scope.md rule R9): every value is an unsigned bit pattern of a stated width, bit 0 the least significant. -/

namespace Sys2Proof

/-- A byte is an unsigned 8-bit value (20_memory.md rule R68). -/
abbrev Byte := BitVec 8

/-- The width of E32's accumulator and of the three words of a packet. -/
abbrev Word32 := BitVec 32

/-- The width of the accumulators of E64 and E128 and of the length counters. -/
abbrev Word64 := BitVec 64

/-- A command packet: `W0 = packet[31:0]`, `OFFSET = packet[63:32]`, `LENGTH = packet[95:64]` (30_encoding.md rule R70). -/
abbrev Packet := BitVec 96

end Sys2Proof
end

