-- ==== Sys2Proof/Config.lean ====
section
/-! DEFINITION. What the spec leaves open: the free values. The block itself has no tunable parameter (00_scope.md rule R8). -/

namespace Sys2Proof

/-- The free values (assumption log 3): the k-th value the machine takes where the spec says "unspecified"
(10_state.md rules R31, R39; 60_exceptions.md rule R184; 70_reset_and_hazards.md rule R210). Nothing
constrains them; a narrower register takes the low bits of one. -/
opaque Config.freeValue : Nat → Word64

end Sys2Proof
end

