-- ==== Sys2Proof/Syntax.lean ====
section
/-! DEFINITION. The sixteen commands of 30_encoding.md rule R75, one constructor per row of opcode_table.json. -/

namespace Sys2Proof

/-- The commands of the block. OFFSET and LENGTH are the only operands (rule R71); the commands without a
range do not examine those two words (rule R72), so their constructors carry none. -/
inductive Instr where
  /-- INIT.32, 41_hash32.md rule R120. -/
  | init32
  /-- INIT.64, 42_hash64.md rule R140. -/
  | init64
  /-- INIT.128, 43_hash128.md rule R160. -/
  | init128
  /-- UPDATE.32 OFFSET, LENGTH, 41_hash32.md rule R122. -/
  | update32 (offset length : Word32)
  /-- UPDATE.64 OFFSET, LENGTH, 42_hash64.md rule R142. -/
  | update64 (offset length : Word32)
  /-- UPDATE.128 OFFSET, LENGTH, 43_hash128.md rule R162. -/
  | update128 (offset length : Word32)
  /-- UPDATES.64, 42_hash64.md rule R143. -/
  | updates64
  /-- UPDATES.128, 43_hash128.md rule R163. -/
  | updates128
  /-- FINAL.32, 41_hash32.md rule R123. -/
  | final32
  /-- FINAL.64, 42_hash64.md rule R144. -/
  | final64
  /-- FINAL.128, 43_hash128.md rule R164. -/
  | final128
  /-- HASH.32 OFFSET, LENGTH, 41_hash32.md rule R124. -/
  | hash32 (offset length : Word32)
  /-- HASH.64 OFFSET, LENGTH, 42_hash64.md rule R145. -/
  | hash64 (offset length : Word32)
  /-- HASH.128 OFFSET, LENGTH, 43_hash128.md rule R165. -/
  | hash128 (offset length : Word32)
  /-- HASHS.64, 42_hash64.md rule R146. -/
  | hashs64
  /-- HASHS.128, 43_hash128.md rule R166. -/
  | hashs128
deriving DecidableEq, Repr

end Sys2Proof
end

