-- ==== Sys2Proof/WellFormed.lean ====
section
/-! DEFINITION. Which packets and which commands are well-formed, stated beside the decoder and not through it (30_encoding.md rules R70 to R77). -/

namespace Sys2Proof

/-- Bits 31:5 of the packet must be 0 (rules R70, R77). -/
def Packet.zeroFieldClear (p : Packet) : Bool := (p >>> 5) &&& 0x7FFFFFF#96 == 0

/-- VAR, bits 1:0, must not be the reserved value 3 (rule R73). -/
def Packet.varAssigned (p : Packet) : Bool := p &&& 3 != 3

/-- OP, bits 4:2, must not be one of the reserved values 6 and 7 (rule R74). -/
def Packet.opAssigned (p : Packet) : Bool := p &&& 0x18 != 0x18

/-- The stream forms, OP 2 and 5, do not exist on E32, VAR 0 (rules R74, R77). -/
def Packet.formExists (p : Packet) : Bool := p &&& 0x1F != 0x08 && p &&& 0x1F != 0x14

/-- A packet is well-formed when none of the four reservations of rule R77 forbids it. -/
def Packet.wellFormed (p : Packet) : Bool :=
  p.zeroFieldClear && p.varAssigned && p.opAssigned && p.formExists

/-- Every command is well-formed: its operands are 32-bit words by type, and no rule restricts their
values at decode (rule R71); a range outside the buffer is an error of execution, not of form (rule R54). -/
def Instr.wellFormed (i : Instr) : Bool :=
  match i with
  | .init32 => true
  | .init64 => true
  | .init128 => true
  | .update32 _ _ => true
  | .update64 _ _ => true
  | .update128 _ _ => true
  | .updates64 => true
  | .updates128 => true
  | .final32 => true
  | .final64 => true
  | .final128 => true
  | .hash32 _ _ => true
  | .hash64 _ _ => true
  | .hash128 _ _ => true
  | .hashs64 => true
  | .hashs128 => true

end Sys2Proof
end

