-- ==== Sys2Proof/Decode.lean ====
section
/-! DEFINITION. The decoder of 30_encoding.md rule R76, total on every packet, and the encoder of rules R70 to R75. -/

namespace Sys2Proof

/-- Why a packet decodes to no command (rules R76, R77). -/
inductive Illegal where
  /-- Some bit of W0[31:5] is set. -/
  | zeroField
  /-- VAR = 3 is reserved. -/
  | reservedVar
  /-- OP = 6 and OP = 7 are reserved. -/
  | reservedOp
  /-- UPDATES and HASHS have no form on E32. -/
  | noStreamForm
deriving DecidableEq, Repr

/-- `W0 = packet[31:0]` (rule R70). -/
def packetW0 (p : Packet) : Word32 := p.extractLsb' 0 32

/-- `OFFSET = packet[63:32]` (rule R70). -/
def packetOffset (p : Packet) : Word32 := p.extractLsb' 32 32

/-- `LENGTH = packet[95:64]` (rule R70). -/
def packetLength (p : Packet) : Word32 := p.extractLsb' 64 32

/-- The packet of three words, the more significant first: `{LENGTH, OFFSET, W0}` (rules R9, R70). -/
def packPacket (w0 offset length : Word32) : Packet := (length ++ offset) ++ w0

/-- VAR = W0[1:0] (rule R73). -/
def fieldVar (w0 : Word32) : BitVec 2 := w0.extractLsb' 0 2

/-- OP = W0[4:2] (rule R74). -/
def fieldOp (w0 : Word32) : BitVec 3 := w0.extractLsb' 2 3

/-- ZERO = W0[31:5] (rule R77). -/
def fieldZero (w0 : Word32) : BitVec 27 := w0.extractLsb' 5 27

/-- The command of rule R75 with the given OP and VAR; `none` where the table has no row. -/
def commandOf (op var : Nat) (offset length : Word32) : Option Instr :=
  match op, var with
  | 0, 0 => some .init32
  | 0, 1 => some .init64
  | 0, 2 => some .init128
  | 1, 0 => some (.update32 offset length)
  | 1, 1 => some (.update64 offset length)
  | 1, 2 => some (.update128 offset length)
  | 2, 1 => some .updates64
  | 2, 2 => some .updates128
  | 3, 0 => some .final32
  | 3, 1 => some .final64
  | 3, 2 => some .final128
  | 4, 0 => some (.hash32 offset length)
  | 4, 1 => some (.hash64 offset length)
  | 4, 2 => some (.hash128 offset length)
  | 5, 1 => some .hashs64
  | 5, 2 => some .hashs128
  | _, _ => none

/-- The row of the table, or, where OP and VAR are assigned and it has none, an E32 stream form (rules R74, R77). -/
def rowOrIllegal (row : Option Instr) : Except Illegal Instr :=
  match row with
  | some i => .ok i
  | none => .error .noStreamForm

/-- The decoder, in the order of rule R76. -/
def decode (p : Packet) : Except Illegal Instr :=
  let w0 := packetW0 p
  if fieldZero w0 ≠ 0 then .error .zeroField
  else if fieldVar w0 = 3 then .error .reservedVar
  else if fieldOp w0 = 6 ∨ fieldOp w0 = 7 then .error .reservedOp
  else rowOrIllegal (commandOf (fieldOp w0).toNat (fieldVar w0).toNat (packetOffset p) (packetLength p))

/-- The value of W0 that selects a command, from the table of rule R75. -/
def opcodeWord (i : Instr) : Word32 :=
  match i with
  | .init32 => 0x00000000
  | .init64 => 0x00000001
  | .init128 => 0x00000002
  | .update32 _ _ => 0x00000004
  | .update64 _ _ => 0x00000005
  | .update128 _ _ => 0x00000006
  | .updates64 => 0x00000009
  | .updates128 => 0x0000000A
  | .final32 => 0x0000000C
  | .final64 => 0x0000000D
  | .final128 => 0x0000000E
  | .hash32 _ _ => 0x00000010
  | .hash64 _ _ => 0x00000011
  | .hash128 _ _ => 0x00000012
  | .hashs64 => 0x00000015
  | .hashs128 => 0x00000016

/-- The OFFSET and LENGTH words of a command; an assembler emits zero where they are unused (rule R72). -/
def operandWords (i : Instr) : Word32 × Word32 :=
  match i with
  | .update32 o l => (o, l)
  | .update64 o l => (o, l)
  | .update128 o l => (o, l)
  | .hash32 o l => (o, l)
  | .hash64 o l => (o, l)
  | .hash128 o l => (o, l)
  | _ => (0, 0)

/-- The packet of a command (rules R70 to R75). -/
def encode (i : Instr) : Packet :=
  packPacket (opcodeWord i) (operandWords i).1 (operandWords i).2

/-- The sixteen legal values of W0 (rules R75, R77). -/
def legalWords : List Word32 :=
  [0x00, 0x01, 0x02, 0x04, 0x05, 0x06, 0x09, 0x0A, 0x0C, 0x0D, 0x0E, 0x10, 0x11, 0x12, 0x15, 0x16]

/-- The packet whose low `nbits` bits are those of `w`, every bit above them 0. The table numbers the bits
of a packet as rule R70 does: W0 first, then OFFSET, then LENGTH (assumption log 12). -/
def packetOfBits (nbits w : Nat) : Packet := BitVec.ofNat 96 (w % 2 ^ nbits)

/-- What the decoder reads from the packet whose bits are `w`. -/
def decodeTableWord (nbits w : Nat) : Option Instr :=
  match decode (packetOfBits nbits w) with
  | .ok i => some i
  | .error _ => none

/-- The engine suffix V of a mnemonic (00_scope.md rule R12). -/
inductive Engine where
  | e32
  | e64
  | e128
deriving DecidableEq, Repr

/-- The pseudo-command `HASHALL.V`, which an assembler expands to `HASH.V 0, IBUF_LEN` (rule R82). -/
def hashAll (v : Engine) (ibufLen : Word32) : Instr :=
  match v with
  | .e32 => .hash32 0 ibufLen
  | .e64 => .hash64 0 ibufLen
  | .e128 => .hash128 0 ibufLen

/-- The pseudo-command `UPDATEALL.V`, which an assembler expands to `UPDATE.V 0, IBUF_LEN` (rule R82). -/
def updateAll (v : Engine) (ibufLen : Word32) : Instr :=
  match v with
  | .e32 => .update32 0 ibufLen
  | .e64 => .update64 0 ibufLen
  | .e128 => .update128 0 ibufLen

/-- The engine a command acts on, named by VAR alone (rule R71). -/
def engineOf (i : Instr) : Engine :=
  match i with
  | .init32 => .e32
  | .init64 => .e64
  | .init128 => .e128
  | .update32 _ _ => .e32
  | .update64 _ _ => .e64
  | .update128 _ _ => .e128
  | .updates64 => .e64
  | .updates128 => .e128
  | .final32 => .e32
  | .final64 => .e64
  | .final128 => .e128
  | .hash32 _ _ => .e32
  | .hash64 _ _ => .e64
  | .hash128 _ _ => .e128
  | .hashs64 => .e64
  | .hashs128 => .e128

end Sys2Proof
end

