-- ==== Sys2Proof/Machine/State.lean ====
section
/-! DEFINITION. The state of the block as plain data (10_state.md), the environment inputs of a command (20_memory.md), the fault and refusal reasons, and State.reset (70_reset_and_hazards.md rule R210). -/

namespace Sys2Proof.Machine

/-- The bytes of one input buffer as a list of cells: addresses strictly rising, and no cell that holds
0, which is what an unlisted address of a buffer reads as (assumption log 11). -/
abbrev Memory := List Host.Cell

/-- The cells are canonical from address `lo` up. -/
def Memory.wfFrom (lo : Nat) : Memory → Bool
  | [] => true
  | (a, b) :: m => decide (lo ≤ a) && b != 0 && Memory.wfFrom (a + 1) m

/-- The canonical form: equal memories are equal lists. -/
def Memory.wf (m : Memory) : Bool := Memory.wfFrom 0 m

/-- One answer of the byte source to a pull (20_memory.md rule R56). -/
inductive Pull where
  /-- `Byte(b)`: the next byte of the stream. -/
  | byte (b : Byte)
  /-- `EOF`: the stream is exhausted. -/
  | eof
  /-- `IOERR`: the read failed. -/
  | ioerr
deriving DecidableEq, Repr

/-- The environment inputs of one command (00_scope.md rule R8; 20_memory.md rules R53, R57, R58). They are
not registers of the block; State holds those of the command being executed (assumption log 10). -/
structure Env where
  /-- `IBUF_PRESENT`: 0 is the null input. -/
  ibufPresent : Bool
  /-- `IBUF_LEN`: the number of bytes in the buffer. -/
  ibufLen : Word32
  /-- `IBUF[]`: the contents. -/
  ibuf : Memory
  /-- `SRC_PRESENT`: 0 is the null byte source. -/
  srcPresent : Bool
  /-- The answers the byte source gives to the pulls to come, in order. A source that has no answer left
  never answers again (assumption log 9). -/
  src : List Pull
deriving DecidableEq, Repr

/-- No buffer and no byte source (assumption log 13). -/
def Env.absent : Env :=
  { ibufPresent := false, ibufLen := 0, ibuf := [], srcPresent := false, src := [] }

/-- The contents are canonical and lie inside the buffer. -/
def Env.wf (e : Env) : Bool := e.ibuf.wf && e.ibuf.all (fun c => decide (c.1 < e.ibufLen.toNat))

/-- What the host or the platform does next (assumption log 1). -/
inductive HostEvent where
  /-- The host issues a packet on the command port, with the environment inputs sampled then. -/
  | command (packet : Packet) (env : Env)
  /-- The host reads a register through the read port (10_state.md rule R39). -/
  | regRead (number : Nat)
  /-- The host reads the digest port of an engine (10_state.md rule R38). -/
  | digestRead (v : Engine)
  /-- The platform resets the block (70_reset_and_hazards.md rules R210, R211). -/
  | reset
deriving DecidableEq, Repr

/-- The response codes of 60_exceptions.md rule R180. -/
inductive RespCode where
  | ok
  | eRange
  | eArg
  | eIo
  | eState
  | eIllegal
deriving DecidableEq, Repr

/-- A response: a code and a digest byte sequence, possibly empty (30_encoding.md rule R80). -/
structure Response where
  code : RespCode
  digest : List Byte
deriving DecidableEq, Repr

/-- The registers of E32 (10_state.md rules R21, R22, R36). -/
structure E32 where
  /-- ACC32. -/
  acc : Word32
  /-- LEN32. -/
  len : Word64
  /-- PH32. -/
  ph : BitVec 2
deriving DecidableEq, Repr

/-- The registers of E64 (10_state.md rules R23 to R25, R36). -/
structure E64 where
  /-- ACC64. -/
  acc : Word64
  /-- LEN64. -/
  len : Word64
  /-- CB64[0..7]. -/
  cb : Vector Byte 8
  /-- CNT64. -/
  cnt : BitVec 3
  /-- PH64. -/
  ph : BitVec 2
deriving DecidableEq, Repr

/-- The registers of E128 (10_state.md rules R27 to R29, R36). -/
structure E128 where
  /-- ACCA. -/
  accA : Word64
  /-- ACCB. -/
  accB : Word64
  /-- LEN128. -/
  len : Word64
  /-- CB128[0..15]. -/
  cb : Vector Byte 16
  /-- CNT128. -/
  cnt : BitVec 4
  /-- PH128. -/
  ph : BitVec 2
deriving DecidableEq, Repr

/-- Everything the spec gives the block (10_state.md rule R20), its ports, and the model's own four
fields: the inputs of the running command, the script of the outside world, the hang and the count of
free values drawn. -/
structure State where
  /-- The Hash32State and PH32. -/
  e32 : E32
  /-- The Hash64State and PH64. -/
  e64 : E64
  /-- The Hash128State and PH128. -/
  e128 : E128
  /-- RSP: the code of the most recently completed command (rule R34). -/
  rsp : BitVec 3
  /-- ERRSEEN: the sticky error bits (rule R35). -/
  errseen : BitVec 6
  /-- The response port: the response of the command last accepted; none while it has given none. -/
  resp : Option Response
  /-- The register read port: the value last read (rule R39). -/
  regOut : Option Word64
  /-- The digest port: the bytes last read (rule R38). -/
  digOut : Option (List Byte)
  /-- MODEL: the environment inputs of the command being executed (assumption log 10). -/
  env : Env
  /-- MODEL: what the host and the platform do from here on, oldest first (assumption log 1). -/
  script : List HostEvent
  /-- MODEL: a stream-form command waits for ever on its source (20_memory.md rule R58, assumption log 9). -/
  hung : Bool
  /-- MODEL: how many free values have been drawn (assumption log 3). -/
  freeNext : Nat
deriving DecidableEq, Repr

/-- Why the machine stops. -/
inductive Fault where
  /-- A `MemRead` outside the buffer, which 20_memory.md rule R52 leaves undefined and says never occurs.
  Raised by the buffer-form commands; safe, since the range check of rule R54 rules it out. -/
  | memReadUndefined
deriving DecidableEq, Repr

/-- Why a command has no meaning in the model. -/
inductive Refusal where
  /-- An arm of exec that has no meaning yet; safe. No arm uses it. -/
  | notModelled (mnemonic : String)
deriving DecidableEq, Repr

/-- Phase IDLE: the engine holds no live hash state (rule R36). -/
def phIdle : BitVec 2 := 0

/-- Phase ACTIVE: a hash computation is open (rule R36). -/
def phActive : BitVec 2 := 1

/-- Phase DONE: the accumulators hold the digest (rule R36). -/
def phDone : BitVec 2 := 2

/-- The block right after reset (70_reset_and_hazards.md rule R210): the three phases IDLE, RSP = 0,
ERRSEEN = 0. The spec leaves every other register unspecified; the model names 0 for each (assumption
log 2), the ports have answered nothing (log 14), no input is driven (log 13), nothing is in the script
(log 1). -/
def State.reset : State :=
  { e32 := { acc := 0, len := 0, ph := 0 }
    e64 := { acc := 0, len := 0, cb := Vector.replicate 8 0, cnt := 0, ph := 0 }
    e128 := { accA := 0, accB := 0, len := 0, cb := Vector.replicate 16 0, cnt := 0, ph := 0 }
    rsp := 0
    errseen := 0
    resp := none
    regOut := none
    digOut := none
    env := Env.absent
    script := []
    hung := false
    freeNext := 0 }

end Sys2Proof.Machine
end

