-- ==== Sys2Proof/Machine/Flags.lean ====
section
/-! DEFINITION. The status registers RSP and ERRSEEN (10_state.md rules R34, R35): the block's only flags beside the phases (rule R41). -/

namespace Sys2Proof.Machine

/-- The 3-bit value of a response code (60_exceptions.md rule R180). -/
def respBits (c : RespCode) : BitVec 3 :=
  match c with
  | .ok => 0
  | .eRange => 1
  | .eArg => 2
  | .eIo => 3
  | .eState => 4
  | .eIllegal => 5

/-- The ERRSEEN bit a code sets: bit `c` for c = 1..5; bit 0 is hardwired 0, so OK sets none (rule R35). -/
def errBit (c : RespCode) : BitVec 6 :=
  match c with
  | .ok => 0b000000
  | .eRange => 0b000010
  | .eArg => 0b000100
  | .eIo => 0b001000
  | .eState => 0b010000
  | .eIllegal => 0b100000

/-- ERRSEEN after a command ended with code `c`: sticky, no command clears a bit (rule R35). -/
def errSeenAfter (old : BitVec 6) (c : RespCode) : BitVec 6 := old ||| errBit c

/-- What ERRSEEN reads as: bit 0 is hardwired 0 (rule R35). -/
def errSeenRead (v : BitVec 6) : BitVec 6 := v &&& 0b111110

/-- The command completes: RSP, ERRSEEN and the response port take its code and digest (rules R34, R35, R80). -/
def complete (c : RespCode) (digest : List Byte) (s : State) : State :=
  { s with
    rsp := respBits c
    errseen := errSeenAfter s.errseen c
    resp := some { code := c, digest := digest } }

end Sys2Proof.Machine
end

