-- ==== Sys2Proof/Machine/Mix.lean ====
section
/-! DEFINITION. The integer_mixdown_unit of 40_mixdown_unit.md: pure functions of their operands (rule R90) on unsigned words that wrap (rule R91). -/

namespace Sys2Proof.Machine

/-! ### Constants (rule R92) -/

def c32a : Word32 := 0xCC9E2D51
def c32b : Word32 := 0x1B873593
def n32 : Word32 := 0xE6546B64
def f32a : Word32 := 0x85EBCA6B
def f32b : Word32 := 0xC2B2AE35
def c0 : Word64 := 0xC6A4A7935BD1E995
def c1 : Word64 := 0x87C37B91114253D5
def c2 : Word64 := 0x4CF5AD432745937F
def n128a : Word64 := 0x0000000052DCE729
def n128b : Word64 := 0x0000000038495AB5
def f64a : Word64 := 0xFF51AFD7ED558CCD
def f64b : Word64 := 0xC4CEB9FE1A85EC53

/-! ### Elementary primitives -/

/-- `ROTL32` and `ROTL64`: left rotate by a constant `0 < r < n` (rules R93, R94). -/
def rotl {n : Nat} (x : BitVec n) (r : Nat) : BitVec n := (x <<< r) ||| (x >>> (n - r))

/-- `XSR_N(x, s) = x ^ (x >> s)` (rule R96). -/
def xsr {n : Nat} (x : BitVec n) (s : Nat) : BitVec n := x ^^^ (x >>> s)

/-- The exact sum of `b_i * 2^(8i)` (rule R97), each byte zero-extended (20_memory.md rule R68). -/
def leNat : List Byte → Nat
  | [] => 0
  | b :: bs => b.toNat + 2 ^ 8 * leNat bs

/-- `LE(b0, ..., b(n-1))` at width `w`: little-endian word decode and tail pack (rule R97). -/
def le (w : Nat) (bs : List Byte) : BitVec w := BitVec.ofNat w (leNat bs)

/-- The `n` bytes `v[8n-1:8n-8], ..., v[7:0]`, most significant first. -/
def beBytes {w : Nat} : Nat → BitVec w → List Byte
  | 0, _ => []
  | n + 1, v => v.extractLsb' (8 * n) 8 :: beBytes n v

/-- `BE_32(v)` (rule R98). -/
def be32 (v : Word32) : List Byte := beBytes 4 v

/-- `BE_64(v)` (rule R98). -/
def be64 (v : Word64) : List Byte := beBytes 8 v

/-! ### E32 primitives -/

/-- `SCR32` (rule R99). -/
def scr32 (k : Word32) : Word32 := rotl (k * c32a) 15 * c32b

/-- `BLK32` (rule R100). -/
def blk32 (h k : Word32) : Word32 := rotl (h ^^^ scr32 k) 13 * 5 + n32

/-- `FMIX32` (rule R101). -/
def fmix32 (h : Word32) : Word32 := xsr (xsr (xsr h 16 * f32a) 13 * f32b) 16

/-! ### E64 primitives -/

/-- `KMIX64` (rule R102). -/
def kmix64 (k : Word64) : Word64 := xsr (k * c0) 47 * c0

/-- `BLK64` (rule R103). -/
def blk64 (h k : Word64) : Word64 := (h ^^^ kmix64 k) * c0

/-- `FMIX64A` (rule R104). -/
def fmix64a (h : Word64) : Word64 := xsr (xsr h 47 * c0) 47

/-! ### E128 primitives -/

/-- `K1MIX` (rule R105). -/
def k1mix (k : Word64) : Word64 := rotl (k * c1) 31 * c2

/-- `K2MIX` (rule R106): the constants in the opposite order to K1MIX. -/
def k2mix (k : Word64) : Word64 := rotl (k * c2) 33 * c1

/-- `BLK128` (rule R107): lane B's update uses the already updated lane A. -/
def blk128 (a b k1 k2 : Word64) : Word64 × Word64 :=
  let a' := (rotl (a ^^^ k1mix k1) 27 + b) * 5 + n128a
  let b' := (rotl (b ^^^ k2mix k2) 31 + a') * 5 + n128b
  (a', b')

/-- `FMIX64` (rule R108, 90_conflicts.md C1): the five steps, once. -/
def fmix64 (x : Word64) : Word64 := xsr (xsr (xsr x 33 * f64a) 33 * f64b) 33

/-! ### The byte cascade -/

/-- For i = base+n-1 down to base: XOR `zext_64(cb[i]) << (8*(i-base))` into `h` (42_hash64.md rule R144,
43_hash128.md rule R164). The last byte, i = base, is shifted by 0, that is XORed in directly. -/
def cascade (cb : List Byte) (base : Nat) : Nat → Word64 → Word64
  | 0, h => h
  | n + 1, h => cascade cb base n (h ^^^ ((cb.getD (base + n) 0).setWidth 64 <<< (8 * n)))

end Sys2Proof.Machine
end

