-- ==== Sys2Proof/Machine/Ops.lean ====
section
/-! DEFINITION. The named operations over memory and registers: buffer bytes, the end of a command (OK, or an error of 60_exceptions.md rule R181), unspecified registers, and reset. -/

namespace Sys2Proof.Machine

/-! ### The bytes of a buffer -/

/-- The byte at an address; an unlisted address reads 0 (assumption log 11). -/
def Memory.read : Memory → Nat → Byte
  | [], _ => 0
  | (a, b) :: m, x => if a = x then b else Memory.read m x

/-- The host places a byte (the block itself never writes memory, 20_memory.md rule R51). Keeps the
canonical form: placing 0 removes the cell. -/
def Memory.write : Memory → Nat → Byte → Memory
  | [], x, v => if v = 0 then [] else [(x, v)]
  | (a, b) :: m, x, v =>
    if x < a then (if v = 0 then (a, b) :: m else (x, v) :: (a, b) :: m)
    else if x = a then (if v = 0 then m else (x, v) :: m)
    else (a, b) :: Memory.write m x v

/-- The host places bytes from an address on. -/
def Memory.load (m : Memory) (a : Nat) : List Byte → Memory
  | [] => m
  | b :: bs => Memory.load (Memory.write m a b) (a + 1) bs

/-- The buffer that holds exactly these bytes from address 0 on. -/
def Memory.ofBytes (bs : List Byte) : Memory := Memory.load [] 0 bs

/-- The `n` bytes `IBUF[addr], ..., IBUF[addr+n-1]`, ascending (20_memory.md rules R52, R55). -/
def bytesAt (m : Memory) (addr n : Nat) : List Byte := (List.range n).map (fun i => m.read (addr + i))

/-- `MemRead(addr, n)`: defined only when the buffer is present and the range lies inside it (rule R52). -/
def memRead (e : Env) (addr n : Nat) : Option (List Byte) :=
  if e.ibufPresent ∧ addr + n ≤ e.ibufLen.toNat then some (bytesAt e.ibuf addr n) else none

/-! ### How a command ends -/

/-- `respond OK(d)` (00_scope.md rule R10). -/
def respondOk (digest : List Byte) (s : State) : State := complete .ok digest s

/-- `raise E_x`, the block's whole trap entry (60_exceptions.md rules R181, R190): RSP takes the code, the
ERRSEEN bit of the code is set, the response carries the code and an empty digest, nothing else changes.
There is no return from it (rule R191): the block is ready for the next command. -/
def raise (c : RespCode) (s : State) : State := complete c [] s

/-! ### Unspecified registers (assumption log 3) -/

/-- E32 with its registers unspecified, from the free value `n` on. -/
def unspecified32 (n : Nat) (ph : BitVec 2) : E32 :=
  { acc := (Config.freeValue n).setWidth 32, len := Config.freeValue (n + 1), ph := ph }

/-- The eight bytes of a word, the least significant first. -/
def bytesOf (v : Word64) : Vector Byte 8 := Vector.ofFn (fun i => v.extractLsb' (8 * i.val) 8)

/-- E64 with its registers unspecified, from the free value `n` on. -/
def unspecified64 (n : Nat) (ph : BitVec 2) : E64 :=
  { acc := Config.freeValue n
    len := Config.freeValue (n + 1)
    cb := bytesOf (Config.freeValue (n + 2))
    cnt := (Config.freeValue (n + 3)).setWidth 3
    ph := ph }

/-- E128 with its registers unspecified, from the free value `n` on. -/
def unspecified128 (n : Nat) (ph : BitVec 2) : E128 :=
  { accA := Config.freeValue n
    accB := Config.freeValue (n + 1)
    len := Config.freeValue (n + 2)
    cb := bytesOf (Config.freeValue (n + 3)) ++ bytesOf (Config.freeValue (n + 4))
    cnt := (Config.freeValue (n + 5)).setWidth 4
    ph := ph }

/-- E64's registers become unspecified and its phase `ph`. -/
def discard64 (ph : BitVec 2) (s : State) : State :=
  { s with e64 := unspecified64 s.freeNext ph, freeNext := s.freeNext + 4 }

/-- E128's registers become unspecified and its phase `ph`. -/
def discard128 (ph : BitVec 2) (s : State) : State :=
  { s with e128 := unspecified128 s.freeNext ph, freeNext := s.freeNext + 6 }

/-! ### Reset -/

/-- What a reset leaves (70_reset_and_hazards.md rules R210, R211; assumption log 4): the three phases
IDLE, RSP = 0, ERRSEEN = 0, every other register unspecified, the ports silent, a hung command abandoned
without a response. -/
def resetBlock (s : State) : State :=
  { s with
    e32 := unspecified32 s.freeNext phIdle
    e64 := unspecified64 (s.freeNext + 2) phIdle
    e128 := unspecified128 (s.freeNext + 6) phIdle
    rsp := 0
    errseen := 0
    resp := none
    regOut := none
    digOut := none
    hung := false
    freeNext := s.freeNext + 12 }

end Sys2Proof.Machine
end

