-- ==== Sys2Proof/Machine/Operands.lean ====
section
/-! DEFINITION. The operand forms: the admission checks in the order of 60_exceptions.md rule R187, the buffer range and the byte source. -/

namespace Sys2Proof.Machine

/-- "Input present", then "range" (rule R187 items 2 and 3; rules R182, R183; the sum exact, R54). With no
buffer the range is not examined. -/
def checkBuffer (e : Env) (offset length : Word32) : Option RespCode :=
  if e.ibufPresent = false then some .eArg
  else if offset.toNat + length.toNat > e.ibufLen.toNat then some .eRange
  else none

/-- "Input present" for the stream forms (rules R57, R183). -/
def checkSource (e : Env) : Option RespCode := if e.srcPresent = false then some .eArg else none

/-- "Phase" (rule R187 item 4; rule R185). -/
def checkPhase (ph : BitVec 2) : Option RespCode := if ph = phActive then none else some .eState

/-- Raises the first check that fails, or runs the command. -/
def afterChecks (checks : List (Option RespCode)) (s : State) (run : Host.Outcome State Fault Refusal) :
    Host.Outcome State Fault Refusal :=
  match checks with
  | [] => run
  | some c :: _ => .next (raise c s)
  | none :: rest => afterChecks rest s run

/-- Runs a command on the bytes `MemRead(OFFSET, LENGTH)` (20_memory.md rule R55). -/
def withRange (offset length : Word32) (s : State)
    (run : List Byte → State) : Host.Outcome State Fault Refusal :=
  match memRead s.env offset.toNat length.toNat with
  | some bs => .next (run bs)
  | none => .fault .memReadUndefined

/-- How a loop of pulls ends. -/
inductive StreamEnd where
  /-- The first EOF. -/
  | eof
  /-- The first IOERR. -/
  | ioerr
  /-- The source never answers the next pull (20_memory.md rule R58, assumption log 9). -/
  | never
deriving DecidableEq, Repr

/-- The loop of a stream-form command (20_memory.md rule R56): pull, absorb each byte as it arrives, stop at
the first EOF or IOERR and pull no more. Answers the engine, how the loop ended, and the answers not pulled. -/
def pullLoop {ε : Type} (absorb : ε → Byte → ε) (e : ε) : List Pull → ε × StreamEnd × List Pull
  | [] => (e, .never, [])
  | .eof :: rest => (e, .eof, rest)
  | .ioerr :: rest => (e, .ioerr, rest)
  | .byte b :: rest => pullLoop absorb (absorb e b) rest

/-- The source after its answers up to `rest` have been pulled. -/
def pulledTo (rest : List Pull) (s : State) : State := { s with env := { s.env with src := rest } }

/-- The command waits for ever: no response, no later command accepted (rule R58). -/
def hang (s : State) : State := { s with resp := none, hung := true }

end Sys2Proof.Machine
end

