-- ==== Sys2Proof/Machine/Hash128.lean ====
section
/-! DEFINITION. E128 and its six commands (43_hash128.md). -/

namespace Sys2Proof.Machine

/-- `ABSORB128(b)` (rule R161): a full block is decoded as two little-endian words and mixed into both lanes. -/
def absorb128 (e : E128) (b : Byte) : E128 :=
  let cb := e.cb.set e.cnt.toNat b e.cnt.isLt
  if e.cnt = 15 then
    let lanes := blk128 e.accA e.accB (le 64 (cb.toList.take 8)) (le 64 (cb.toList.drop 8))
    { e with cb := cb, accA := lanes.1, accB := lanes.2, cnt := 0, len := e.len + 1 }
  else
    { e with cb := cb, cnt := e.cnt + 1, len := e.len + 1 }

/-- `ABSORB128(s)`: the step applied to each byte in order (rule R161). -/
def absorbAll128 (e : E128) (bs : List Byte) : E128 := bs.foldl absorb128 e

/-- The body of INIT.128 (rule R160): the carry buffer is not cleared. -/
def initBody128 (e : E128) : E128 := { e with accA := 0, accB := 0, len := 0, cnt := 0, ph := phActive }

/-- Lane B after the k2 step of FINAL.128 (rule R164): only when 9 or more bytes are buffered. -/
def tailB (e : E128) : Word64 :=
  if 9 ≤ e.cnt.toNat then e.accB ^^^ k2mix (cascade e.cb.toList 8 (e.cnt.toNat - 8) 0) else e.accB

/-- Lane A after the k1 step of FINAL.128 (rule R164): only when 1 or more bytes are buffered. -/
def tailA (e : E128) : Word64 :=
  if 1 ≤ e.cnt.toNat then e.accA ^^^ k1mix (cascade e.cb.toList 0 (min e.cnt.toNat 8) 0) else e.accA

/-- The final mixing of the two lanes (rule R164): the length into both, cross-additions that use the
already updated lane A, the avalanche of each, cross-additions again. -/
def finalLanes (a b len : Word64) : Word64 × Word64 :=
  let a := a ^^^ len
  let b := b ^^^ len
  let a := a + b
  let b := b + a
  let a := fmix64 a
  let b := fmix64 b
  let a := a + b
  let b := b + a
  (a, b)

/-- The body of FINAL.128 (rule R164). -/
def finalBody128 (e : E128) : E128 :=
  let lanes := finalLanes (tailA e) (tailB e) e.len
  { e with accA := lanes.1, accB := lanes.2, ph := phDone }

/-- `DIG128 = BE_64(ACCA) ++ BE_64(ACCB)` (10_state.md rule R38). -/
def digest128 (e : E128) : List Byte := be64 e.accA ++ be64 e.accB

/-- INIT.128 (rule R160). -/
def execInit128 (s : State) : Host.Outcome State Fault Refusal :=
  .next (respondOk [] { s with e128 := initBody128 s.e128 })

/-- UPDATE.128 OFFSET, LENGTH (rule R162). -/
def execUpdate128 (offset length : Word32) (s : State) : Host.Outcome State Fault Refusal :=
  afterChecks [checkBuffer s.env offset length, checkPhase s.e128.ph] s
    (withRange offset length s fun bs => respondOk [] { s with e128 := absorbAll128 s.e128 bs })

/-- The stream loop of UPDATES.128 and HASHS.128 from the engine `e` on (rules R163, R166; as stream64). -/
def stream128 (e : E128) (fin : E128 → State → State) (s : State) : State :=
  match pullLoop absorb128 e s.env.src with
  | (e', .eof, rest) => fin e' (pulledTo rest s)
  | (_, .ioerr, rest) => raise .eIo (discard128 phIdle (pulledTo rest s))
  | (_, .never, rest) => hang (discard128 phActive (pulledTo rest s))

/-- UPDATES.128 (rule R163). -/
def execUpdates128 (s : State) : Host.Outcome State Fault Refusal :=
  afterChecks [checkSource s.env, checkPhase s.e128.ph] s
    (.next (stream128 s.e128 (fun e t => respondOk [] { t with e128 := e }) s))

/-- FINAL.128 (rule R164). -/
def execFinal128 (s : State) : Host.Outcome State Fault Refusal :=
  afterChecks [checkPhase s.e128.ph] s
    (.next (respondOk (digest128 (finalBody128 s.e128)) { s with e128 := finalBody128 s.e128 }))

/-- HASH.128 OFFSET, LENGTH (rule R165). -/
def execHash128 (offset length : Word32) (s : State) : Host.Outcome State Fault Refusal :=
  afterChecks [checkBuffer s.env offset length] s
    (withRange offset length s fun bs =>
      let e := finalBody128 (absorbAll128 (initBody128 s.e128) bs)
      respondOk (digest128 e) { s with e128 := e })

/-- HASHS.128 (rule R166). -/
def execHashs128 (s : State) : Host.Outcome State Fault Refusal :=
  afterChecks [checkSource s.env] s
    (.next (stream128 (initBody128 s.e128)
      (fun e t => respondOk (digest128 (finalBody128 e)) { t with e128 := finalBody128 e }) s))

end Sys2Proof.Machine
end

