-- ==== Sys2Proof/Machine/Hash32.lean ====
section
/-! DEFINITION. E32 and its four commands (41_hash32.md). -/

namespace Sys2Proof.Machine

/-- The consecutive little-endian 32-bit words of a byte sequence, and the 0 to 3 bytes after the last full
word (rule R121). -/
def wordsOf : List Byte → List Word32 × List Byte
  | b0 :: b1 :: b2 :: b3 :: rest => (le 32 [b0, b1, b2, b3] :: (wordsOf rest).1, (wordsOf rest).2)
  | tail => ([], tail)

/-- The accumulator part of `ABSORB32` (rule R121): every full word through BLK32, then a tail of 1 to 3
bytes scrambled and XORed in, without the rotate and multiply. -/
def absorbWords32 (acc : Word32) (bs : List Byte) : Word32 :=
  let h := (wordsOf bs).1.foldl blk32 acc
  let tail := (wordsOf bs).2
  if tail.isEmpty then h else h ^^^ scr32 (le 32 tail)

/-- `ABSORB32(s)` (rule R121). -/
def absorb32 (e : E32) (bs : List Byte) : E32 :=
  { e with acc := absorbWords32 e.acc bs, len := e.len + BitVec.ofNat 64 bs.length }

/-- The body of INIT.32 (rule R120). -/
def initBody32 (_ : E32) : E32 := { acc := 0, len := 0, ph := phActive }

/-- The body of FINAL.32 (rule R123): only the low 32 bits of LEN32 enter. -/
def finalBody32 (e : E32) : E32 :=
  { e with acc := fmix32 (e.acc ^^^ e.len.setWidth 32), ph := phDone }

/-- `DIG32 = BE_32(ACC32)` (10_state.md rule R38). -/
def digest32 (e : E32) : List Byte := be32 e.acc

/-- INIT.32 (rule R120). -/
def execInit32 (s : State) : Host.Outcome State Fault Refusal :=
  .next (respondOk [] { s with e32 := initBody32 s.e32 })

/-- UPDATE.32 OFFSET, LENGTH (rule R122). -/
def execUpdate32 (offset length : Word32) (s : State) : Host.Outcome State Fault Refusal :=
  afterChecks [checkBuffer s.env offset length, checkPhase s.e32.ph] s
    (withRange offset length s fun bs => respondOk [] { s with e32 := absorb32 s.e32 bs })

/-- FINAL.32 (rule R123). -/
def execFinal32 (s : State) : Host.Outcome State Fault Refusal :=
  afterChecks [checkPhase s.e32.ph] s
    (.next (respondOk (digest32 (finalBody32 s.e32)) { s with e32 := finalBody32 s.e32 }))

/-- HASH.32 OFFSET, LENGTH (rule R124): INIT, UPDATE, FINAL as one command, whatever the phase. -/
def execHash32 (offset length : Word32) (s : State) : Host.Outcome State Fault Refusal :=
  afterChecks [checkBuffer s.env offset length] s
    (withRange offset length s fun bs =>
      let e := finalBody32 (absorb32 (initBody32 s.e32) bs)
      respondOk (digest32 e) { s with e32 := e })

end Sys2Proof.Machine
end

