-- ==== Sys2Proof/Machine/Hash64.lean ====
section
/-! DEFINITION. E64 and its six commands (42_hash64.md). -/

namespace Sys2Proof.Machine

/-- `ABSORB64(b)` (rule R141): the byte that completes a block mixes it and empties the carry buffer. -/
def absorb64 (e : E64) (b : Byte) : E64 :=
  let cb := e.cb.set e.cnt.toNat b e.cnt.isLt
  if e.cnt = 7 then
    { e with cb := cb, acc := blk64 e.acc (le 64 cb.toList), cnt := 0, len := e.len + 1 }
  else
    { e with cb := cb, cnt := e.cnt + 1, len := e.len + 1 }

/-- `ABSORB64(s)`: the step applied to each byte in order (rule R141). -/
def absorbAll64 (e : E64) (bs : List Byte) : E64 := bs.foldl absorb64 e

/-- The body of INIT.64 (rule R140): the carry buffer is not cleared. -/
def initBody64 (e : E64) : E64 := { e with acc := 0, len := 0, cnt := 0, ph := phActive }

/-- The tail of FINAL.64 (rule R144): the byte cascade into the accumulator itself, then times C0; nothing
at all when no byte is buffered. -/
def tail64 (e : E64) : Word64 :=
  if e.cnt = 0 then e.acc else cascade e.cb.toList 0 e.cnt.toNat e.acc * c0

/-- The body of FINAL.64 (rule R144); the length is not mixed (rule R147). -/
def finalBody64 (e : E64) : E64 := { e with acc := fmix64a (tail64 e), ph := phDone }

/-- `DIG64 = BE_64(ACC64)` (10_state.md rule R38). -/
def digest64 (e : E64) : List Byte := be64 e.acc

/-- INIT.64 (rule R140). -/
def execInit64 (s : State) : Host.Outcome State Fault Refusal :=
  .next (respondOk [] { s with e64 := initBody64 s.e64 })

/-- UPDATE.64 OFFSET, LENGTH (rule R142). -/
def execUpdate64 (offset length : Word32) (s : State) : Host.Outcome State Fault Refusal :=
  afterChecks [checkBuffer s.env offset length, checkPhase s.e64.ph] s
    (withRange offset length s fun bs => respondOk [] { s with e64 := absorbAll64 s.e64 bs })

/-- The stream loop of UPDATES.64 and HASHS.64 from the engine `e` on (rules R143, R146): `fin` ends the
command at EOF; IOERR makes the phase IDLE and the registers unspecified and raises E_IO (60_exceptions.md
rule R184); a source that never answers leaves the command open. -/
def stream64 (e : E64) (fin : E64 → State → State) (s : State) : State :=
  match pullLoop absorb64 e s.env.src with
  | (e', .eof, rest) => fin e' (pulledTo rest s)
  | (_, .ioerr, rest) => raise .eIo (discard64 phIdle (pulledTo rest s))
  | (_, .never, rest) => hang (discard64 phActive (pulledTo rest s))

/-- UPDATES.64 (rule R143). -/
def execUpdates64 (s : State) : Host.Outcome State Fault Refusal :=
  afterChecks [checkSource s.env, checkPhase s.e64.ph] s
    (.next (stream64 s.e64 (fun e t => respondOk [] { t with e64 := e }) s))

/-- FINAL.64 (rule R144). -/
def execFinal64 (s : State) : Host.Outcome State Fault Refusal :=
  afterChecks [checkPhase s.e64.ph] s
    (.next (respondOk (digest64 (finalBody64 s.e64)) { s with e64 := finalBody64 s.e64 }))

/-- HASH.64 OFFSET, LENGTH (rule R145). -/
def execHash64 (offset length : Word32) (s : State) : Host.Outcome State Fault Refusal :=
  afterChecks [checkBuffer s.env offset length] s
    (withRange offset length s fun bs =>
      let e := finalBody64 (absorbAll64 (initBody64 s.e64) bs)
      respondOk (digest64 e) { s with e64 := e })

/-- HASHS.64 (rule R146). -/
def execHashs64 (s : State) : Host.Outcome State Fault Refusal :=
  afterChecks [checkSource s.env] s
    (.next (stream64 (initBody64 s.e64)
      (fun e t => respondOk (digest64 (finalBody64 e)) { t with e64 := finalBody64 e }) s))

end Sys2Proof.Machine
end

