-- ==== Sys2Proof/Machine/Ports.lean ====
section
/-! DEFINITION. The register read port (10_state.md rule R39) and the digest port (rule R38): the only observation facilities (60_exceptions.md rule R195). -/

namespace Sys2Proof.Machine

/-- A register of an engine at the read port: its own value, zero-extended to 64 bits, or, while the
engine is IDLE, an unspecified value of its own width (rule R39, assumption log 6). -/
def portValue {w : Nat} (ph : BitVec 2) (free : Word64) (v : BitVec w) : Word64 :=
  if ph = phIdle then (free.setWidth w).setWidth 64 else v.setWidth 64

/-- Carry bytes from index `base` on as the port shows them: byte `base + i` at bits 8i+7:8i; a byte at or
above the count is stale and unspecified (rules R25, R29, R31, assumption log 7). -/
def carryValue (ph : BitVec 2) (free : Word64) (cb : List Byte) (base cnt : Nat) : Word64 :=
  if ph = phIdle then free
  else le 64 ((List.range 8).map fun i =>
    if base + i < cnt then cb.getD (base + i) 0 else free.extractLsb' (8 * i) 8)

/-- `RegRead(number)` (rule R39), `free` being the value an unspecified register shows this time. The phase
registers are specified in every phase (rules R36, R210). Numbers not in the table read as zero. -/
def regValue (s : State) (free : Word64) (number : Nat) : Word64 :=
  match number with
  | 0x00 => portValue s.e32.ph free s.e32.acc
  | 0x01 => portValue s.e32.ph free s.e32.len
  | 0x02 => s.e32.ph.setWidth 64
  | 0x10 => portValue s.e64.ph free s.e64.acc
  | 0x11 => portValue s.e64.ph free s.e64.len
  | 0x12 => carryValue s.e64.ph free s.e64.cb.toList 0 s.e64.cnt.toNat
  | 0x13 => portValue s.e64.ph free s.e64.cnt
  | 0x14 => s.e64.ph.setWidth 64
  | 0x20 => portValue s.e128.ph free s.e128.accA
  | 0x21 => portValue s.e128.ph free s.e128.accB
  | 0x22 => portValue s.e128.ph free s.e128.len
  | 0x23 => carryValue s.e128.ph free s.e128.cb.toList 0 s.e128.cnt.toNat
  | 0x24 => carryValue s.e128.ph free s.e128.cb.toList 8 s.e128.cnt.toNat
  | 0x25 => portValue s.e128.ph free s.e128.cnt
  | 0x26 => s.e128.ph.setWidth 64
  | 0x30 => s.rsp.setWidth 64
  | 0x31 => (errSeenRead s.errseen).setWidth 64
  | _ => 0

/-- The host reads a register: no side effect on the block (rule R39); two reads of an unspecified register
need not agree, so each read draws a free value. -/
def readRegister (number : Nat) (s : State) : State :=
  { s with regOut := some (regValue s (Config.freeValue s.freeNext) number), freeNext := s.freeNext + 1 }

/-- The bytes the digest port of an engine shows (rule R38): the big-endian accumulators in phases ACTIVE and
DONE (a digest only in DONE), no meaning in phase IDLE (70_reset_and_hazards.md rule R210, assumption log 8). -/
def digestValue (s : State) (freeA freeB : Word64) (v : Engine) : List Byte :=
  match v with
  | .e32 => if s.e32.ph = phIdle then be32 (freeA.setWidth 32) else digest32 s.e32
  | .e64 => if s.e64.ph = phIdle then be64 freeA else digest64 s.e64
  | .e128 => if s.e128.ph = phIdle then be64 freeA ++ be64 freeB else digest128 s.e128

/-- The host reads the digest port of an engine. -/
def readDigest (v : Engine) (s : State) : State :=
  { s with
    digOut := some (digestValue s (Config.freeValue s.freeNext) (Config.freeValue (s.freeNext + 1)) v)
    freeNext := s.freeNext + 2 }

/-- The command port takes a packet with its environment inputs from the script. -/
def acceptCommand (env : Env) (rest : List HostEvent) (s : State) : State :=
  { s with env := env, script := rest }

/-- The next packet is issued at the command port, with the environment inputs State holds, before anything
else of the script, and no earlier command is waiting. -/
def issueNext (p : Packet) (s : State) : State :=
  { s with script := .command p s.env :: s.script, hung := false }

end Sys2Proof.Machine
end

