-- ==== Sys2Proof/Machine/Dispatch.lean ====
section
/-! DEFINITION. Which meaning runs for which command. -/

namespace Sys2Proof.Machine

/-- One command on the state that holds its environment inputs. -/
def exec (i : Instr) (s : State) : Host.Outcome State Fault Refusal :=
  match i with
  | .init32 => Sys2Proof.Machine.execInit32 s
  | .init64 => Sys2Proof.Machine.execInit64 s
  | .init128 => Sys2Proof.Machine.execInit128 s
  | .update32 offset length => Sys2Proof.Machine.execUpdate32 offset length s
  | .update64 offset length => Sys2Proof.Machine.execUpdate64 offset length s
  | .update128 offset length => Sys2Proof.Machine.execUpdate128 offset length s
  | .updates64 => Sys2Proof.Machine.execUpdates64 s
  | .updates128 => Sys2Proof.Machine.execUpdates128 s
  | .final32 => Sys2Proof.Machine.execFinal32 s
  | .final64 => Sys2Proof.Machine.execFinal64 s
  | .final128 => Sys2Proof.Machine.execFinal128 s
  | .hash32 offset length => Sys2Proof.Machine.execHash32 offset length s
  | .hash64 offset length => Sys2Proof.Machine.execHash64 offset length s
  | .hash128 offset length => Sys2Proof.Machine.execHash128 offset length s
  | .hashs64 => Sys2Proof.Machine.execHashs64 s
  | .hashs128 => Sys2Proof.Machine.execHashs128 s

end Sys2Proof.Machine
end

