-- ==== Sys2Proof/Machine/Issue.lean ====
section
/-! DEFINITION. What one event of the outside world does to the block, to completion (00_scope.md rule R7, 20_memory.md rule R64). -/

namespace Sys2Proof.Machine

/-- A packet at the command port: decoded and executed, or ended with E_ILLEGAL and no other effect
(30_encoding.md rule R77, 60_exceptions.md rule R186). -/
def runPacket (p : Packet) (s : State) : Host.Outcome State Fault Refusal :=
  match decode p with
  | .ok i => exec i s
  | .error _ => .next (raise .eIllegal s)

/-- The event at the head of the script, `rest` being what follows it. While a command hangs, no command
is accepted and no register read (20_memory.md rule R58; reads are between commands, 10_state.md rule R39):
the event waits. Only reset ends the hang (70_reset_and_hazards.md rule R211). -/
def runEvent (ev : HostEvent) (rest : List HostEvent) (s : State) : Host.Outcome State Fault Refusal :=
  match ev with
  | .reset => .next (resetBlock { s with script := rest })
  | .command p env => if s.hung then .next s else runPacket p (acceptCommand env rest s)
  | .regRead number => if s.hung then .next s else .next (readRegister number { s with script := rest })
  | .digestRead v => if s.hung then .next s else .next (readDigest v { s with script := rest })

end Sys2Proof.Machine
end

