-- ==== Sys2Proof/Machine/Step.lean ====
section
/-! DEFINITION. One step of the machine. -/

namespace Sys2Proof.Machine

/-- The next event of the script; with nothing in the script the block is idle with its registers held
(60_exceptions.md rule R196, 70_reset_and_hazards.md rule R211). -/
def step (s : State) : Host.Outcome State Fault Refusal :=
  match s.script with
  | [] => .next s
  | ev :: rest => runEvent ev rest s

/-- The state whose next step runs the command packet with bits `w` (assumption log 1). -/
def State.withFetchWord (s : State) (nbits w : Nat) : State := issueNext (packetOfBits nbits w) s

end Sys2Proof.Machine
end

