-- ==== Sys2Proof/Safety.lean ====
section
/-! DEFINITION. The terms the claims use: the invariants of the status registers, of the carry counts and of the inputs, the phase table, and reference forms of the absorb procedures. -/

namespace Sys2Proof.Machine

/-! ### Invariants -/

/-- The environment inputs, running and to come, are canonical buffers. -/
def State.InputsOk (s : State) : Prop :=
  s.env.wf = true ∧ ∀ p env, HostEvent.command p env ∈ s.script → env.wf = true

/-- No phase register holds 3 (10_state.md rule R36); RSP holds a code of the table (60_exceptions.md
rule R180), equal to the code on the response port (10_state.md rule R34); ERRSEEN bit 0 is 0 and the bit of
a code in RSP is set (rule R35); a hung command has given no response (20_memory.md rule R58). -/
def State.StatusOk (s : State) : Prop :=
  s.e32.ph ≠ 3 ∧ s.e64.ph ≠ 3 ∧ s.e128.ph ≠ 3 ∧
  s.rsp.toNat ≤ 5 ∧ s.errseen.getLsbD 0 = false ∧
  (s.rsp ≠ 0 → s.errseen.getLsbD s.rsp.toNat = true) ∧
  (∀ r, s.resp = some r → s.rsp = respBits r.code) ∧
  (s.hung = true → s.resp = none)

/-- While an engine is live and no command hangs, its carry count is its length modulo its block size
(42_hash64.md rule R141, 43_hash128.md rule R161). -/
def State.CarryOk (s : State) : Prop :=
  s.hung = false →
    (s.e64.ph ≠ phIdle → s.e64.cnt.toNat = s.e64.len.toNat % 8) ∧
    (s.e128.ph ≠ phIdle → s.e128.cnt.toNat = s.e128.len.toNat % 16)

/-! ### Engines and phases -/

/-- PH.V (10_state.md rule R36). -/
def State.phase (s : State) (v : Engine) : BitVec 2 :=
  match v with
  | .e32 => s.e32.ph
  | .e64 => s.e64.ph
  | .e128 => s.e128.ph

/-- LEN.V (10_state.md rule R26). -/
def State.len (s : State) (v : Engine) : Word64 :=
  match v with
  | .e32 => s.e32.len
  | .e64 => s.e64.len
  | .e128 => s.e128.len

/-- The bytes the accumulators of an engine serialise to (10_state.md rule R38). -/
def State.digest (s : State) (v : Engine) : List Byte :=
  match v with
  | .e32 => digest32 s.e32
  | .e64 => digest64 s.e64
  | .e128 => digest128 s.e128

/-- All registers of an engine are the same in two states. -/
def SameEngine (v : Engine) (s t : State) : Prop :=
  match v with
  | .e32 => t.e32 = s.e32
  | .e64 => t.e64 = s.e64
  | .e128 => t.e128 = s.e128

/-- The digest size of an engine in bytes (00_scope.md rule R8). -/
def digestSize (v : Engine) : Nat :=
  match v with
  | .e32 => 4
  | .e64 => 8
  | .e128 => 16

/-- The operations of 30_encoding.md rule R74. -/
inductive Op where
  | init
  | update
  | updates
  | final
  | hash
  | hashs
deriving DecidableEq, Repr

/-- The operation of a command (rule R74). -/
def opOf (i : Instr) : Op :=
  match i with
  | .init32 => .init
  | .init64 => .init
  | .init128 => .init
  | .update32 _ _ => .update
  | .update64 _ _ => .update
  | .update128 _ _ => .update
  | .updates64 => .updates
  | .updates128 => .updates
  | .final32 => .final
  | .final64 => .final
  | .final128 => .final
  | .hash32 _ _ => .hash
  | .hash64 _ _ => .hash
  | .hash128 _ _ => .hash
  | .hashs64 => .hashs
  | .hashs128 => .hashs

/-- The commands that return a digest when they end with OK (30_encoding.md rule R80). -/
def returnsDigest (op : Op) : Bool :=
  match op with
  | .init => false
  | .update => false
  | .updates => false
  | .final => true
  | .hash => true
  | .hashs => true

/-- The transition table of 10_state.md rule R37: the phase of the command's engine after a command of
operation `op` ended with code `c`, from the phase before it. -/
def phaseAfter (op : Op) (c : RespCode) (before : BitVec 2) : BitVec 2 :=
  match c with
  | .eIllegal => before
  | .eArg => before
  | .eRange => before
  | .eState => before
  | .eIo => phIdle
  | .ok =>
    match op with
    | .init => phActive
    | .update => phActive
    | .updates => phActive
    | .final => phDone
    | .hash => phDone
    | .hashs => phDone

/-- The operations that require phase ACTIVE (60_exceptions.md rule R187 item 4). -/
def needsActive (op : Op) : Bool :=
  match op with
  | .init => false
  | .update => true
  | .updates => true
  | .final => true
  | .hash => false
  | .hashs => false

/-- The UPDATE command of an engine. -/
def updateCmd (v : Engine) (offset length : Word32) : Instr :=
  match v with
  | .e32 => .update32 offset length
  | .e64 => .update64 offset length
  | .e128 => .update128 offset length

/-- The HASH command of an engine. -/
def hashCmd (v : Engine) (offset length : Word32) : Instr :=
  match v with
  | .e32 => .hash32 offset length
  | .e64 => .hash64 offset length
  | .e128 => .hash128 offset length

/-- The INIT command of an engine. -/
def initCmd (v : Engine) : Instr :=
  match v with
  | .e32 => .init32
  | .e64 => .init64
  | .e128 => .init128

/-- The FINAL command of an engine. -/
def finalCmd (v : Engine) : Instr :=
  match v with
  | .e32 => .final32
  | .e64 => .final64
  | .e128 => .final128

/-! ### Inputs -/

/-- A buffer that holds exactly these bytes. -/
def bufferEnv (bs : List Byte) : Env :=
  { ibufPresent := true
    ibufLen := BitVec.ofNat 32 bs.length
    ibuf := Memory.ofBytes bs
    srcPresent := false
    src := [] }

/-- A byte source that delivers these bytes and then EOF (20_memory.md rule R58). -/
def sourceEnv (bs : List Byte) : Env :=
  { ibufPresent := false
    ibufLen := 0
    ibuf := []
    srcPresent := true
    src := bs.map Pull.byte ++ [.eof] }

/-- One update of an engine: these bytes through a byte source, or through a buffer. -/
structure Feed where
  viaSource : Bool
  bytes : List Byte
deriving DecidableEq, Repr

/-- The update command of one feed on E64, with its inputs. -/
def feed64 (f : Feed) (s : State) : Host.Outcome State Fault Refusal :=
  if f.viaSource then exec .updates64 { s with env := sourceEnv f.bytes }
  else exec (updateAll .e64 (BitVec.ofNat 32 f.bytes.length)) { s with env := bufferEnv f.bytes }

/-- The update command of one feed on E128, with its inputs. -/
def feed128 (f : Feed) (s : State) : Host.Outcome State Fault Refusal :=
  if f.viaSource then exec .updates128 { s with env := sourceEnv f.bytes }
  else exec (updateAll .e128 (BitVec.ofNat 32 f.bytes.length)) { s with env := bufferEnv f.bytes }

/-- Feeds one after the other, stopping where one does not answer a next state. -/
def feedAll (one : Feed → State → Host.Outcome State Fault Refusal) :
    List Feed → State → Host.Outcome State Fault Refusal
  | [], s => .next s
  | f :: fs, s =>
    match one f s with
    | .next t => feedAll one fs t
    | .fault r => .fault r
    | .refused r => .refused r

/-- The bytes of all feeds, in order. -/
def fedBytes (fs : List Feed) : List Byte := fs.flatMap Feed.bytes

/-- Every feed fits a 32-bit LENGTH. -/
def FeedsFit (fs : List Feed) : Prop := ∀ f ∈ fs, f.bytes.length < 2 ^ 32

/-- The outcome is a next state that satisfies `P`. -/
def NextSatisfies (o : Host.Outcome State Fault Refusal) (P : State → Prop) : Prop :=
  ∃ t, o = .next t ∧ P t

/-! ### Reference forms of the absorb procedures -/

/-- The `n` bytes of `s` from index `i` on. -/
def slice (s : List Byte) (i n : Nat) : List Byte := (s.drop i).take n

/-- The accumulator of ABSORB32 as the indexed loop of 41_hash32.md rule R121 computes it. -/
def absorb32Indexed (acc : Word32) (s : List Byte) : Word32 :=
  let nw := s.length / 4
  let nt := s.length % 4
  let h := (List.range nw).foldl (fun h j => blk32 h (le 32 (slice s (4 * j) 4))) acc
  if nt > 0 then h ^^^ scr32 (le 32 (slice s (4 * nw) nt)) else h

/-- The fold of BLK64 over the first `floor(n/8)` little-endian words of `s` (42_hash64.md rule R141). -/
def foldBlocks64 (acc : Word64) (s : List Byte) : Word64 :=
  (List.range (s.length / 8)).foldl (fun h j => blk64 h (le 64 (slice s (8 * j) 8))) acc

/-- The fold of BLK128 over the first `floor(n/16)` blocks of `s` (43_hash128.md rule R161). -/
def foldBlocks128 (lanes : Word64 × Word64) (s : List Byte) : Word64 × Word64 :=
  (List.range (s.length / 16)).foldl
    (fun h j => blk128 h.1 h.2 (le 64 (slice s (16 * j) 8)) (le 64 (slice s (16 * j + 8) 8))) lanes

end Sys2Proof.Machine
end

