-- ==== Sys2Proof/Certificates/Slice0/Obligations.lean ====
section
/-! DEFINITION. The statements about the machine, for the provers. Each docstring names the rule of spec/ it states. -/

open Sys2Proof Sys2Proof.Machine

/-! ### Encoding and the step -/

/-- For every well-formed command, decoding its encoding gives it back, at every value of OFFSET and LENGTH
(30_encoding.md rules R70, R71, R75, R76). -/
def Obligations.DecodeEncodeAgree : Prop :=
  ∀ i : Instr, i.wellFormed = true → decode (encode i) = .ok i

/-- The packets that decode are those with one of the sixteen legal W0 values, and those no reservation
forbids (rule R77); every other packet, on every state and with every input, ends with E_ILLEGAL: RSP = 5,
ERRSEEN bit 5 set, that response, nothing else changed (rules R77, R186). -/
def Obligations.IllegalPacketsOnlyReport : Prop :=
  ∀ p : Packet,
    ((∃ i, decode p = .ok i) ↔ packetW0 p ∈ legalWords) ∧
    ((∃ i, decode p = .ok i) ↔ p.wellFormed = true) ∧
    (packetW0 p ∉ legalWords → ∀ (env : Env) (rest : List HostEvent) (s : State),
      s.script = .command p env :: rest → s.hung = false →
      step s = .next { s with
        script := rest
        env := env
        rsp := 5
        errseen := s.errseen ||| 0b100000
        resp := some { code := .eIllegal, digest := [] } })

/-- INIT.V, UPDATES.V, FINAL.V and HASHS.V decode to themselves whatever the OFFSET and LENGTH words hold, and
the encoder, as an assembler, puts zero there (rule R72). -/
def Obligations.UnusedOperandWordsIgnored : Prop :=
  (∀ i ∈ [Instr.init32, .init64, .init128, .updates64, .updates128, .final32, .final64, .final128, .hashs64, .hashs128],
    packetOffset (encode i) = 0 ∧ packetLength (encode i) = 0) ∧
  ∀ offset length : Word32,
    decode (packPacket 0x00 offset length) = .ok .init32 ∧
    decode (packPacket 0x01 offset length) = .ok .init64 ∧
    decode (packPacket 0x02 offset length) = .ok .init128 ∧
    decode (packPacket 0x09 offset length) = .ok .updates64 ∧
    decode (packPacket 0x0A offset length) = .ok .updates128 ∧
    decode (packPacket 0x0C offset length) = .ok .final32 ∧
    decode (packPacket 0x0D offset length) = .ok .final64 ∧
    decode (packPacket 0x0E offset length) = .ok .final128 ∧
    decode (packPacket 0x15 offset length) = .ok .hashs64 ∧
    decode (packPacket 0x16 offset length) = .ok .hashs128

/-- A few packets written out as 96-bit numbers from the table of rule R75, one per operation, with operands
in their words (rule R70), decode to the commands they stand for. -/
def Obligations.SamplePacketsDecode : Prop :=
  decode 0x000000000000000000000000#96 = .ok .init32 ∧
  decode 0x0000000B0000000500000005#96 = .ok (.update64 5 11) ∧
  decode 0x00000000000000000000000A#96 = .ok .updates128 ∧
  decode 0x00000000000000000000000C#96 = .ok .final32 ∧
  decode 0x0000002C0000000200000012#96 = .ok (.hash128 2 44) ∧
  decode 0xFFFFFFFFDEADBEEF00000015#96 = .ok .hashs64 ∧
  decode 0x000000000000000000000008#96 = .error .noStreamForm ∧
  decode 0x000000000000000000000003#96 = .error .reservedVar ∧
  decode 0x000000000000000000000018#96 = .error .reservedOp ∧
  decode 0x000000000000000080000005#96 = .error .zeroField

/-- When the next event is a packet that decodes to a command and no earlier command hangs, the step is exec
of that command, on the state that holds the packet's inputs and the rest of the script; with an empty script
the block keeps every register (20_memory.md rule R64, 60_exceptions.md rule R196; the script of events is the
model's, log 1). -/
def Obligations.StepRunsDecodedCommand : Prop :=
  (∀ (s : State) (p : Packet) (env : Env) (rest : List HostEvent) (i : Instr),
    s.script = .command p env :: rest → s.hung = false → decode p = .ok i →
    step s = exec i { s with env := env, script := rest }) ∧
  (∀ s : State, s.script = [] → step s = .next s)

/-! ### The integer_mixdown_unit -/

/-- ROTL moves bit i to bit (i + r) mod n, for both widths and every amount 0 < r < n, and leaves the all-zero
and the all-one word as they are (40_mixdown_unit.md rules R93, R94). -/
def Obligations.RotateMovesEveryBit : Prop :=
  (∀ (x : Word32) (r i : Nat), 0 < r → r < 32 → i < 32 →
    (rotl x r).getLsbD ((i + r) % 32) = x.getLsbD i) ∧
  (∀ (x : Word64) (r i : Nat), 0 < r → r < 64 → i < 64 →
    (rotl x r).getLsbD ((i + r) % 64) = x.getLsbD i) ∧
  (∀ r : Nat, 0 < r → r < 32 → rotl (0 : Word32) r = 0 ∧ rotl (0xFFFFFFFF : Word32) r = 0xFFFFFFFF)

/-- The mixing functions map 0 to 0, BLK32 and BLK128 of zeros are not zero, and so the digest of the empty
input is all zero bytes on every engine (rule R109). -/
def Obligations.MixingOfZeroIsZero : Prop :=
  scr32 0 = 0 ∧ fmix32 0 = 0 ∧ kmix64 0 = 0 ∧ fmix64a 0 = 0 ∧ k1mix 0 = 0 ∧ k2mix 0 = 0 ∧ fmix64 0 = 0 ∧
  blk64 0 0 = 0 ∧ blk32 0 0 = 0xE6546B64 ∧ blk128 0 0 0 0 = (0x0000000052DCE729, 0x00000001D699DE82) ∧
  (∀ (v : Engine) (s : State) (offset : Word32),
    s.env.ibufPresent = true → offset.toNat ≤ s.env.ibufLen.toNat →
    ∃ t, exec (hashCmd v offset 0) s = .next t ∧
      t.resp = some { code := .ok, digest := List.replicate (digestSize v) 0 })

/-- The cascade of bytes c[n-1], ..., c[0] into h is h XOR LE(c[0], ..., c[n-1]), for up to eight bytes (rule
R110). -/
def Obligations.CascadeIsLittleEndianXor : Prop :=
  ∀ (c : List Byte) (h : Word64), c.length ≤ 8 → cascade c 0 c.length h = h ^^^ le 64 c

/-- Emitting a word most significant byte first and decoding the reversed bytes little-endian gives the word
back, at both widths; the two byte orders are each other's mirror (rules R97, R98). -/
def Obligations.DigestBytesMirrorDecode : Prop :=
  (∀ v : Word32, le 32 (be32 v).reverse = v ∧ (be32 v).length = 4) ∧
  (∀ v : Word64, le 64 (be64 v).reverse = v ∧ (be64 v).length = 8)

/-- LE of at most eight bytes shows byte i at bits 8i+7:8i, zero-extended, at width 64, and likewise of at
most four bytes at width 32 (rule R97, 20_memory.md rule R68). -/
def Obligations.LittleEndianPlacesBytes : Prop :=
  (∀ (c : List Byte) (i : Nat), c.length ≤ 8 → i < 8 → (le 64 c).extractLsb' (8 * i) 8 = c.getD i 0) ∧
  (∀ (c : List Byte) (i : Nat), c.length ≤ 4 → i < 4 → (le 32 c).extractLsb' (8 * i) 8 = c.getD i 0)

/-! ### What each command does -/

/-- INIT.V always completes, in every phase: the accumulators, the length and (64, 128) the count become 0,
the phase ACTIVE, the response OK and empty, RSP 0, and nothing else changes, the carry buffers and ERRSEEN
among it (the rules' lists of what INIT.V writes name none of them); its W0 is 0, 1 and 2 (rules R120, R140,
R160). -/
def Obligations.InitZeroesItsEngine : Prop :=
  (packetW0 (encode .init32) = 0x00000000 ∧ packetW0 (encode .init64) = 0x00000001 ∧
    packetW0 (encode .init128) = 0x00000002) ∧
  ∀ s : State,
    exec .init32 s = .next { s with
      e32 := { acc := 0, len := 0, ph := 1 }, rsp := 0, resp := some { code := .ok, digest := [] } } ∧
    exec .init64 s = .next { s with
      e64 := { s.e64 with acc := 0, len := 0, cnt := 0, ph := 1 }, rsp := 0,
      resp := some { code := .ok, digest := [] } } ∧
    exec .init128 s = .next { s with
      e128 := { s.e128 with accA := 0, accB := 0, len := 0, cnt := 0, ph := 1 }, rsp := 0,
      resp := some { code := .ok, digest := [] } }

/-- UPDATE.V in phase ACTIVE on a range inside a present buffer completes: the engine absorbs exactly the
bytes IBUF[OFFSET + i], i = 0 .. LENGTH-1, in ascending order; RSP is 0, the response OK and empty, and
nothing else changes (rules R122, R142, R162, R55; the carry bytes at or above the count stay as the pseudocode
leaves them, log 7). -/
def Obligations.UpdateAbsorbsItsRange : Prop :=
  ∀ (s : State) (offset length : Word32),
    s.env.ibufPresent = true → offset.toNat + length.toNat ≤ s.env.ibufLen.toNat →
    let bs := (List.range length.toNat).map (fun i => s.env.ibuf.read (offset.toNat + i))
    (s.e32.ph = 1 → exec (.update32 offset length) s = .next { s with
      e32 := absorb32 s.e32 bs, rsp := 0, resp := some { code := .ok, digest := [] } }) ∧
    (s.e64.ph = 1 → exec (.update64 offset length) s = .next { s with
      e64 := bs.foldl absorb64 s.e64, rsp := 0, resp := some { code := .ok, digest := [] } }) ∧
    (s.e128.ph = 1 → exec (.update128 offset length) s = .next { s with
      e128 := bs.foldl absorb128 s.e128, rsp := 0, resp := some { code := .ok, digest := [] } })

/-- UPDATES.V in phase ACTIVE, with a source that delivers some bytes and then EOF, completes: the engine
absorbs those bytes in order, the source is pulled up to that EOF and no further, RSP is 0, the response OK
and empty, and nothing else changes (rules R143, R163, R56; log 7 as for UPDATE.V). -/
def Obligations.UpdatesAbsorbsItsSource : Prop :=
  ∀ (s : State) (bs : List Byte) (rest : List Pull),
    s.env.srcPresent = true → s.env.src = bs.map Pull.byte ++ .eof :: rest →
    (s.e64.ph = 1 → exec .updates64 s = .next { s with
      e64 := bs.foldl absorb64 s.e64, env := { s.env with src := rest }, rsp := 0,
      resp := some { code := .ok, digest := [] } }) ∧
    (s.e128.ph = 1 → exec .updates128 s = .next { s with
      e128 := bs.foldl absorb128 s.e128, env := { s.env with src := rest }, rsp := 0,
      resp := some { code := .ok, digest := [] } })

/-- FINAL.32 in phase ACTIVE completes: ACC32 becomes FMIX32 of ACC32 XOR the low 32 bits of LEN32, LEN32 is
unchanged, the phase DONE, the digest the four bytes of ACC32 most significant first, nothing else changes;
outside ACTIVE it raises E_STATE (rule R123; W0 = 0x0000000C). -/
def Obligations.Final32GivesItsDigest : Prop :=
  packetW0 (encode .final32) = 0x0000000C ∧
  ∀ s : State,
    let acc := fmix32 (s.e32.acc ^^^ s.e32.len.extractLsb' 0 32)
    (s.e32.ph = 1 → exec .final32 s = .next { s with
      e32 := { acc := acc, len := s.e32.len, ph := 2 }, rsp := 0,
      resp := some { code := .ok, digest :=
        [acc.extractLsb' 24 8, acc.extractLsb' 16 8, acc.extractLsb' 8 8, acc.extractLsb' 0 8] } }) ∧
    (s.e32.ph ≠ 1 → exec .final32 s = .next { s with
      rsp := 4, errseen := s.errseen ||| 0b010000, resp := some { code := .eState, digest := [] } })

/-- FINAL.64 in phase ACTIVE completes: with CNT64 = 0 no tail step, else ACC64 is XORed with LE of the CNT64
buffered bytes and multiplied by C0; then FMIX64A; LEN64, CB64 and CNT64 stay, the phase is DONE, the digest
the eight bytes most significant first, nothing else changes; outside ACTIVE it raises E_STATE (rule R144; W0 = 0x0000000D). -/
def Obligations.Final64GivesItsDigest : Prop :=
  packetW0 (encode .final64) = 0x0000000D ∧
  ∀ s : State,
    let tail := if s.e64.cnt = 0 then s.e64.acc
      else (s.e64.acc ^^^ le 64 (s.e64.cb.toList.take s.e64.cnt.toNat)) * 0xC6A4A7935BD1E995
    let acc := fmix64a tail
    (s.e64.ph = 1 → exec .final64 s = .next { s with
      e64 := { s.e64 with acc := acc, ph := 2 }, rsp := 0,
      resp := some { code := .ok, digest := be64 acc } }) ∧
    (s.e64.ph ≠ 1 → exec .final64 s = .next { s with
      rsp := 4, errseen := s.errseen ||| 0b010000, resp := some { code := .eState, digest := [] } })

/-- FINAL.128 in phase ACTIVE completes: with n = CNT128 >= 9, ACCB is XORed with K2MIX of LE of the bytes 8 ..
n-1; with n >= 1, ACCA is XORed with K1MIX of LE of the bytes 0 .. min(n,8)-1; then the length into both lanes,
A + B, B + A, FMIX64 of both, A + B, B + A; LEN128, CB128 and CNT128 stay, the phase is DONE, the digest lane
A's eight bytes and then lane B's, nothing else changes; outside ACTIVE it raises E_STATE (rule R164; W0 = 0x0000000E). -/
def Obligations.Final128GivesItsDigest : Prop :=
  packetW0 (encode .final128) = 0x0000000E ∧
  ∀ s : State,
    let n := s.e128.cnt.toNat
    let cb := s.e128.cb.toList
    let tb := if n ≥ 9 then s.e128.accB ^^^ k2mix (le 64 ((cb.take n).drop 8)) else s.e128.accB
    let ta := if n ≥ 1 then s.e128.accA ^^^ k1mix (le 64 (cb.take (min n 8))) else s.e128.accA
    let a1 := (ta ^^^ s.e128.len) + (tb ^^^ s.e128.len)
    let b1 := (tb ^^^ s.e128.len) + a1
    let a2 := fmix64 a1 + fmix64 b1
    let b2 := fmix64 b1 + a2
    (s.e128.ph = 1 → exec .final128 s = .next { s with
      e128 := { s.e128 with accA := a2, accB := b2, ph := 2 }, rsp := 0,
      resp := some { code := .ok, digest := be64 a2 ++ be64 b2 } }) ∧
    (s.e128.ph ≠ 1 → exec .final128 s = .next { s with
      rsp := 4, errseen := s.errseen ||| 0b010000, resp := some { code := .eState, digest := [] } })

/-- HASH.V on an admitted range completes in every phase, and the state it leaves is the one INIT.V, UPDATE.V
on the same range and FINAL.V leave one after the other (rules R124, R145, R165). -/
def Obligations.HashIsInitUpdateFinal : Prop :=
  ∀ (v : Engine) (s : State) (offset length : Word32),
    s.env.ibufPresent = true → offset.toNat + length.toNat ≤ s.env.ibufLen.toNat →
    ∃ s1 s2 s3, exec (initCmd v) s = .next s1 ∧ exec (updateCmd v offset length) s1 = .next s2 ∧
      exec (finalCmd v) s2 = .next s3 ∧ s3.phase v = 2 ∧
      s3.resp = some { code := .ok, digest := s3.digest v } ∧
      exec (hashCmd v offset length) s = .next s3

/-- HASHS.V with a source that delivers some bytes and then EOF completes in every phase, and the state it
leaves is the one INIT.V, UPDATES.V and FINAL.V leave one after the other (rules R146, R166). -/
def Obligations.HashsIsInitUpdatesFinal : Prop :=
  ∀ (s : State) (bs : List Byte) (rest : List Pull),
    s.env.srcPresent = true → s.env.src = bs.map Pull.byte ++ .eof :: rest →
    (∃ s1 s2 s3, exec .init64 s = .next s1 ∧ exec .updates64 s1 = .next s2 ∧ exec .final64 s2 = .next s3 ∧
      s3.e64.ph = 2 ∧ s3.resp = some { code := .ok, digest := digest64 s3.e64 } ∧
      exec .hashs64 s = .next s3) ∧
    (∃ s1 s2 s3, exec .init128 s = .next s1 ∧ exec .updates128 s1 = .next s2 ∧ exec .final128 s2 = .next s3 ∧
      s3.e128.ph = 2 ∧ s3.resp = some { code := .ok, digest := digest128 s3.e128 } ∧
      exec .hashs128 s = .next s3)

/-! ### The absorb procedures -/

/-- ABSORB32 is the indexed loop of rule R121: floor(n/4) little-endian words through BLK32, then the n mod 4
tail bytes packed, scrambled and XORed in, and n added to LEN32 modulo 2^64; the phase stays. -/
def Obligations.Absorb32FollowsTheLoop : Prop :=
  ∀ (e : E32) (s : List Byte),
    absorb32 e s = { acc := absorb32Indexed e.acc s, len := e.len + BitVec.ofNat 64 s.length, ph := e.ph }

/-- After absorbing s from a fresh state E64 holds: in ACC64 the fold of BLK64 over the first floor(n/8)
little-endian words, in CNT64 n mod 8, in CB64[0 .. CNT64-1] the last n mod 8 bytes, in LEN64 n (rule R141). -/
def Obligations.Absorb64FoldsWholeBlocks : Prop :=
  ∀ (e : E64) (s : List Byte), e.acc = 0 → e.len = 0 → e.cnt = 0 →
    let t := s.foldl absorb64 e
    t.acc = foldBlocks64 0 s ∧ t.cnt.toNat = s.length % 8 ∧
    t.cb.toList.take (s.length % 8) = s.drop (8 * (s.length / 8)) ∧
    t.len = BitVec.ofNat 64 s.length ∧ t.ph = e.ph

/-- After absorbing s from a fresh state E128 holds: in the lanes the fold of BLK128 over the first
floor(n/16) blocks, in CNT128 n mod 16, in CB128[0 .. CNT128-1] the last n mod 16 bytes, in LEN128 n (rule
R161). -/
def Obligations.Absorb128FoldsWholeBlocks : Prop :=
  ∀ (e : E128) (s : List Byte), e.accA = 0 → e.accB = 0 → e.len = 0 → e.cnt = 0 →
    let t := s.foldl absorb128 e
    (t.accA, t.accB) = foldBlocks128 (0, 0) s ∧ t.cnt.toNat = s.length % 16 ∧
    t.cb.toList.take (s.length % 16) = s.drop (16 * (s.length / 16)) ∧
    t.len = BitVec.ofNat 64 s.length ∧ t.ph = e.ph

/-- Slices of E32 whose lengths are multiples of 4, all but the last, absorb to the same state as their
concatenation in one command; "Hello, world!" cut at 8 gives the one-shot digest, cut at 5 it gives another
(rule R125). -/
def Obligations.Split32OnWordBoundaries : Prop :=
  (∀ (e : E32) (slices : List (List Byte)) (last : List Byte), (∀ s ∈ slices, s.length % 4 = 0) →
    (slices ++ [last]).foldl absorb32 e = absorb32 e (slices.flatten ++ last)) ∧
  (let hello : List Byte := [0x48, 0x65, 0x6c, 0x6c, 0x6f, 0x2c, 0x20, 0x77, 0x6f, 0x72, 0x6c, 0x64, 0x21]
   let fresh : E32 := { acc := 0, len := 0, ph := 1 }
   digest32 (finalBody32 (absorb32 (absorb32 fresh (hello.take 8)) (hello.drop 8))) = [0xC0, 0x36, 0x3E, 0x43] ∧
   digest32 (finalBody32 (absorb32 fresh hello)) = [0xC0, 0x36, 0x3E, 0x43] ∧
   digest32 (finalBody32 (absorb32 (absorb32 fresh (hello.take 5)) (hello.drop 5))) = [0xEA, 0x7C, 0x0A, 0x14])

/-- Any mixture of UPDATE.V and UPDATES.V on an engine in phase ACTIVE completes and leaves the engine as one
absorption of all the bytes would; so two mixtures that carry the same bytes, however split and through
whichever form, leave E64 and E128 the same; E32 has no stream form (20_memory.md rule R69, 43_hash128.md rule R168). -/
def Obligations.FeedsAbsorbTheirConcatenation : Prop :=
  (∀ offset length : Word32, decode (packPacket 0x08 offset length) = .error .noStreamForm ∧
    decode (packPacket 0x14 offset length) = .error .noStreamForm) ∧
  ∀ (fs gs : List Feed) (s : State), FeedsFit fs → FeedsFit gs → fedBytes fs = fedBytes gs →
    (s.e64.ph = 1 → ∃ t u, feedAll feed64 fs s = .next t ∧ feedAll feed64 gs s = .next u ∧
      t.e64 = (fedBytes fs).foldl absorb64 s.e64 ∧ u.e64 = t.e64 ∧ t.e32 = s.e32 ∧ t.e128 = s.e128) ∧
    (s.e128.ph = 1 → ∃ t u, feedAll feed128 fs s = .next t ∧ feedAll feed128 gs s = .next u ∧
      t.e128 = (fedBytes fs).foldl absorb128 s.e128 ∧ u.e128 = t.e128 ∧ t.e32 = s.e32 ∧ t.e64 = s.e64)

/-- Chunk invariance: INIT.V, any mixture of UPDATE.V and UPDATES.V, FINAL.V gives the response that one HASH.V
over a buffer of the concatenated bytes gives, for E64 and E128 (42_hash64.md rule R148, 43_hash128.md rule
R168). -/
def Obligations.ChunkedDigestEqualsOneShot : Prop :=
  ∀ (fs : List Feed) (s : State), FeedsFit fs → (fedBytes fs).length < 2 ^ 32 →
    (∃ s1 s2 t u, exec .init64 s = .next s1 ∧ feedAll feed64 fs s1 = .next s2 ∧ exec .final64 s2 = .next t ∧
      exec (hashAll .e64 (BitVec.ofNat 32 (fedBytes fs).length)) { s with env := bufferEnv (fedBytes fs) } =
        .next u ∧ t.resp = u.resp ∧ ∃ d, u.resp = some { code := .ok, digest := d } ∧ d.length = 8) ∧
    (∃ s1 s2 t u, exec .init128 s = .next s1 ∧ feedAll feed128 fs s1 = .next s2 ∧ exec .final128 s2 = .next t ∧
      exec (hashAll .e128 (BitVec.ofNat 32 (fedBytes fs).length)) { s with env := bufferEnv (fedBytes fs) } =
        .next u ∧ t.resp = u.resp ∧ ∃ d, u.resp = some { code := .ok, digest := d } ∧ d.length = 16)

/-- The response and the whole of E32 after HASH.32 are a function of the bytes of the range: two states, two
offsets and two buffers that show the same LENGTH bytes give the same (41_hash32.md rule R126). -/
def Obligations.Hash32DependsOnItsBytesOnly : Prop :=
  ∀ (s t : State) (offset offset' length : Word32),
    s.env.ibufPresent = true → offset.toNat + length.toNat ≤ s.env.ibufLen.toNat →
    t.env.ibufPresent = true → offset'.toNat + length.toNat ≤ t.env.ibufLen.toNat →
    (∀ i < length.toNat, s.env.ibuf.read (offset.toNat + i) = t.env.ibuf.read (offset'.toNat + i)) →
    ∃ s' t', exec (.hash32 offset length) s = .next s' ∧ exec (.hash32 offset' length) t = .next t' ∧
      s'.resp = t'.resp ∧ s'.e32 = t'.e32

/-- Hashing a sub-range equals hashing a fresh buffer of just those bytes by HASHALL.V, on each engine
(20_memory.md rule R55, 30_encoding.md rule R82). -/
def Obligations.SubRangeEqualsFreshCopy : Prop :=
  ∀ (v : Engine) (s : State) (offset length : Word32),
    s.env.ibufPresent = true → offset.toNat + length.toNat ≤ s.env.ibufLen.toNat →
    let bs := (List.range length.toNat).map (fun i => s.env.ibuf.read (offset.toNat + i))
    ∃ t u, exec (hashCmd v offset length) s = .next t ∧
      exec (hashAll v (bufferEnv bs).ibufLen) { s with env := bufferEnv bs } = .next u ∧
      t.resp = u.resp ∧ t.digest v = u.digest v

/-- An input of n zero bytes, for every n, has the all-zero E64 digest: on the engine from a fresh state, and,
where n fits one command, as the response of HASHALL.64 (42_hash64.md rule R149). -/
def Obligations.ZeroBytesHashToZero64 : Prop :=
  (∀ (n : Nat) (e : E64), e.acc = 0 → e.cnt = 0 →
    digest64 (finalBody64 ((List.replicate n (0 : Byte)).foldl absorb64 e)) = List.replicate 8 0) ∧
  (∀ (n : Nat) (s : State), n < 2 ^ 32 →
    ∃ t, exec (hashAll .e64 (BitVec.ofNat 32 n)) { s with env := bufferEnv (List.replicate n 0) } = .next t ∧
      t.resp = some { code := .ok, digest := List.replicate 8 0 })

/-- LEN64 enters no digest: two states that differ only in LEN64 give the same response, RSP and ERRSEEN after every
command, the same phases when it responds, and the same other registers of every engine but one that lost its state,
that is the engine of a command that ended with E_IO or never responds, whose registers are unspecified
(42_hash64.md rule R147, 60_exceptions.md rule R184, 20_memory.md rule R58). -/
def Obligations.Length64EntersNoDigest : Prop :=
  ∀ (i : Instr) (s t : State) (len : Word64), exec i s = .next t →
    let lost (v : Engine) : Prop := engineOf i = v ∧ ∀ r, t.resp = some r → r.code = .eIo
    ∃ u, exec i { s with e64 := { s.e64 with len := len } } = .next u ∧
      u.resp = t.resp ∧ u.rsp = t.rsp ∧ u.errseen = t.errseen ∧ u.e32 = t.e32 ∧
      (t.resp ≠ none → u.e64.ph = t.e64.ph ∧ u.e128.ph = t.e128.ph) ∧
      (¬ lost .e64 → u.e64.acc = t.e64.acc ∧ u.e64.cb = t.e64.cb ∧ u.e64.cnt = t.e64.cnt ∧ u.e64.ph = t.e64.ph) ∧
      (¬ lost .e128 → u.e128 = t.e128)

/-- LEN.V counts modulo 2^64: an admitted UPDATE.V adds LENGTH, an UPDATES.V that ends at EOF adds the number
of bytes delivered (10_state.md rule R26; beyond 2^63 bytes the spec's own decision D18, log 15). -/
def Obligations.LengthCountsModuloTwoTo64 : Prop :=
  (∀ (v : Engine) (s : State) (offset length : Word32), s.phase v = 1 →
    s.env.ibufPresent = true → offset.toNat + length.toNat ≤ s.env.ibufLen.toNat →
    ∃ t, exec (updateCmd v offset length) s = .next t ∧
      (t.len v).toNat = ((s.len v).toNat + length.toNat) % 2 ^ 64) ∧
  (∀ (s : State) (bs : List Byte) (rest : List Pull),
    s.env.srcPresent = true → s.env.src = bs.map Pull.byte ++ .eof :: rest →
    (s.e64.ph = 1 → ∃ t, exec .updates64 s = .next t ∧
      t.e64.len.toNat = (s.e64.len.toNat + bs.length) % 2 ^ 64) ∧
    (s.e128.ph = 1 → ∃ t, exec .updates128 s = .next t ∧
      t.e128.len.toNat = (s.e128.len.toNat + bs.length) % 2 ^ 64))

/-- A zero-length UPDATE.V at any offset inside or at the end of the buffer is admitted and changes no
register of the engine; one byte past the end it is refused with E_RANGE (20_memory.md rule R54, 30_encoding.md
rule R78). -/
def Obligations.EmptyUpdateChangesNoEngine : Prop :=
  ∀ (v : Engine) (s : State) (offset : Word32), s.env.ibufPresent = true → s.phase v = 1 →
    (offset.toNat ≤ s.env.ibufLen.toNat →
      exec (updateCmd v offset 0) s =
        .next { s with rsp := 0, resp := some { code := .ok, digest := [] } }) ∧
    (s.env.ibufLen.toNat < offset.toNat →
      exec (updateCmd v offset 0) s =
        .next { s with rsp := 1, errseen := s.errseen ||| 0b000010,
                       resp := some { code := .eRange, digest := [] } })

/-! ### Errors -/

/-- With no buffer UPDATE.V and HASH.V, and with no byte source UPDATES.V and HASHS.V, end with E_ARG whatever
the operands and the phase: RSP = 2, ERRSEEN bit 2, that response, nothing else changed, no pull made
(60_exceptions.md rule R183). -/
def Obligations.AbsentInputIsArgError : Prop :=
  ∀ (s : State) (offset length : Word32),
    let t : State := { s with
      rsp := 2, errseen := s.errseen ||| 0b000100, resp := some { code := .eArg, digest := [] } }
    (s.env.ibufPresent = false → ∀ v : Engine,
      exec (updateCmd v offset length) s = .next t ∧ exec (hashCmd v offset length) s = .next t) ∧
    (s.env.srcPresent = false →
      exec .updates64 s = .next t ∧ exec .updates128 s = .next t ∧
      exec .hashs64 s = .next t ∧ exec .hashs128 s = .next t)

/-- A range that leaves the buffer, the sum taken exactly, ends UPDATE.V and HASH.V with E_RANGE whatever the
phase: RSP = 1, ERRSEEN bit 1, that response, nothing else changed (60_exceptions.md rule R182). -/
def Obligations.RangeErrorChangesNothingElse : Prop :=
  ∀ (v : Engine) (s : State) (offset length : Word32),
    s.env.ibufPresent = true → s.env.ibufLen.toNat < offset.toNat + length.toNat →
    let t : State := { s with
      rsp := 1, errseen := s.errseen ||| 0b000010, resp := some { code := .eRange, digest := [] } }
    exec (updateCmd v offset length) s = .next t ∧ exec (hashCmd v offset length) s = .next t

/-- Outside phase ACTIVE, UPDATE.V on an admitted range, UPDATES.V with a source present, and FINAL.V end with
E_STATE: RSP = 4, ERRSEEN bit 4, that response, nothing else changed, no pull made (60_exceptions.md rule
R185). -/
def Obligations.WrongPhaseIsStateError : Prop :=
  ∀ (s : State) (offset length : Word32),
    let t : State := { s with
      rsp := 4, errseen := s.errseen ||| 0b010000, resp := some { code := .eState, digest := [] } }
    (∀ v : Engine, s.phase v ≠ 1 →
      exec (finalCmd v) s = .next t ∧
      (s.env.ibufPresent = true → offset.toNat + length.toNat ≤ s.env.ibufLen.toNat →
        exec (updateCmd v offset length) s = .next t)) ∧
    (s.env.srcPresent = true →
      (s.e64.ph ≠ 1 → exec .updates64 s = .next t) ∧ (s.e128.ph ≠ 1 → exec .updates128 s = .next t))

/-- When a source delivers some bytes and then IOERR, UPDATES.V (in phase ACTIVE) and HASHS.V (in every phase)
end with E_IO: the engine's phase is IDLE, RSP = 3, ERRSEEN bit 3, that response, the source is pulled up to
that IOERR and no further, and the other two engines are unaffected; nothing is said of the engine's other
registers (60_exceptions.md rule R184). -/
def Obligations.IoErrorDiscardsItsEngine : Prop :=
  ∀ (s : State) (bs : List Byte) (rest : List Pull),
    s.env.srcPresent = true → s.env.src = bs.map Pull.byte ++ .ioerr :: rest →
    let reported (t : State) : Prop :=
      t.rsp = 3 ∧ t.errseen = s.errseen ||| 0b001000 ∧ t.resp = some { code := .eIo, digest := [] } ∧
      t.env = { s.env with src := rest } ∧ t.e32 = s.e32 ∧ t.script = s.script ∧ t.hung = s.hung ∧
      t.regOut = s.regOut ∧ t.digOut = s.digOut
    (∃ t, exec .hashs64 s = .next t ∧ t.e64.ph = 0 ∧ t.e128 = s.e128 ∧ reported t) ∧
    (∃ t, exec .hashs128 s = .next t ∧ t.e128.ph = 0 ∧ t.e64 = s.e64 ∧ reported t) ∧
    (s.e64.ph = 1 → ∃ t, exec .updates64 s = .next t ∧ t.e64.ph = 0 ∧ t.e128 = s.e128 ∧ reported t) ∧
    (s.e128.ph = 1 → ∃ t, exec .updates128 s = .next t ∧ t.e128.ph = 0 ∧ t.e64 = s.e64 ∧ reported t)

/-- A source that never gives EOF or IOERR leaves an admitted stream command without a response, RSP and
ERRSEEN as they were; from then on no packet is accepted: a step with a packet next changes nothing, until a
reset, which ends a hang; after a reset in any state the response port holds none and the rest of the script is
kept (20_memory.md rule R58, 70_reset_and_hazards.md rule R211; the hang as a field of the state is the model's,
log 9, and so are what a reset leaves on the response port and in the script, logs 4 and 14). -/
def Obligations.EndlessSourceNeverResponds : Prop :=
  (∀ (s : State) (bs : List Byte), s.env.srcPresent = true → s.env.src = bs.map Pull.byte →
    let stuck (t : State) : Prop :=
      t.hung = true ∧ t.resp = none ∧ t.rsp = s.rsp ∧ t.errseen = s.errseen ∧ t.e32 = s.e32 ∧
      t.env = { s.env with src := [] } ∧ t.script = s.script ∧ t.regOut = s.regOut ∧ t.digOut = s.digOut
    (∃ t, exec .hashs64 s = .next t ∧ stuck t ∧ t.e128 = s.e128) ∧
    (∃ t, exec .hashs128 s = .next t ∧ stuck t ∧ t.e64 = s.e64) ∧
    (s.e64.ph = 1 → ∃ t, exec .updates64 s = .next t ∧ stuck t ∧ t.e128 = s.e128) ∧
    (s.e128.ph = 1 → ∃ t, exec .updates128 s = .next t ∧ stuck t ∧ t.e64 = s.e64)) ∧
  (∀ (s : State) (p : Packet) (env : Env) (rest : List HostEvent),
    s.hung = true → s.script = .command p env :: rest → step s = .next s) ∧
  (∀ (s : State) (rest : List HostEvent), s.script = .reset :: rest →
    ∃ t, step s = .next t ∧ t.hung = false ∧ t.resp = none ∧ t.script = rest)

/-- Precise errors: a command that ends with E_ILLEGAL, E_ARG, E_RANGE or E_STATE leaves every register but
RSP and ERRSEEN, and the inputs, the source unpulled among them, as they were (60_exceptions.md rule R188). -/
def Obligations.ErrorsArePrecise : Prop :=
  ∀ (i : Instr) (s t : State) (r : Response), exec i s = .next t → t.resp = some r →
    r.code ≠ .ok → r.code ≠ .eIo →
    t = { s with rsp := respBits r.code, errseen := s.errseen ||| errBit r.code, resp := some r } ∧ r.digest = []

/-- The checks are made in the order of rule R187: for a command that reads a buffer the code is E_ARG exactly
when the buffer is absent; else E_RANGE exactly when the range leaves it; else E_STATE exactly when the
operation needs phase ACTIVE and the phase is another; else OK. For the stream forms the source takes the
buffer's place and a last code E_IO can arise; INIT.V ends with OK and FINAL.V with E_STATE or OK. Before all
of them, a packet that decodes to no command ends with E_ILLEGAL whatever the inputs and the phases. -/
def Obligations.OneCodeInCheckOrder : Prop :=
  (∀ (s : State) (p : Packet) (env : Env) (rest : List HostEvent),
    s.script = .command p env :: rest → s.hung = false → (∀ i, decode p ≠ .ok i) →
    NextSatisfies (step s) (fun t => t.resp = some { code := .eIllegal, digest := [] })) ∧
  (∀ (i : Instr) (s t : State) (r : Response), exec i s = .next t → t.resp = some r →
    match i with
    | .init32 | .init64 | .init128 => r.code = .ok
    | .final32 | .final64 | .final128 =>
      r.code = if s.phase (engineOf i) = 1 then .ok else .eState
    | .update32 o l | .update64 o l | .update128 o l =>
      r.code = if s.env.ibufPresent = false then .eArg
        else if s.env.ibufLen.toNat < o.toNat + l.toNat then .eRange
        else if s.phase (engineOf i) = 1 then .ok else .eState
    | .hash32 o l | .hash64 o l | .hash128 o l =>
      r.code = if s.env.ibufPresent = false then .eArg
        else if s.env.ibufLen.toNat < o.toNat + l.toNat then .eRange else .ok
    | .updates64 | .updates128 =>
      if s.env.srcPresent = false then r.code = .eArg
      else if s.phase (engineOf i) = 1 then r.code = .ok ∨ r.code = .eIo else r.code = .eState
    | .hashs64 | .hashs128 =>
      if s.env.srcPresent = false then r.code = .eArg else r.code = .ok ∨ r.code = .eIo)

/-! ### Whole-machine rules -/

/-- A command on engine V never changes PH.W or any register of another engine W (10_state.md rule R37, 00_scope.md
rule R3). -/
def Obligations.CommandsKeepOtherEngines : Prop :=
  ∀ (i : Instr) (s t : State) (w : Engine), exec i s = .next t → w ≠ engineOf i → SameEngine w s t

/-- The frame of every command: it changes no register of another engine, no output of the two read ports, nothing
of the inputs but the pulled source, nothing of the script; when it gives a response, RSP is that code, ERRSEEN has
gained exactly that code's bit, and a command that ends with OK leaves ERRSEEN as it was (10_state.md rules R34, R35,
R37, 60_exceptions.md rule R181). -/
def Obligations.EveryCommandFrame : Prop :=
  ∀ (i : Instr) (s t : State), exec i s = .next t →
    t.regOut = s.regOut ∧ t.digOut = s.digOut ∧ t.script = s.script ∧ t.env = { s.env with src := t.env.src } ∧
    (∀ w, w ≠ engineOf i → SameEngine w s t) ∧
    (∀ r, t.resp = some r → t.hung = s.hung ∧ t.rsp = respBits r.code ∧ t.errseen = s.errseen ||| errBit r.code ∧
      (r.code = .ok → t.errseen = s.errseen ∧ t.freeNext = s.freeNext))

/-- The transition table of rule R37: after a command that gives a response, the phase of its engine is the
table's, a command that needs ACTIVE and ended with OK or E_IO started in ACTIVE, and the phases of the other
engines are as before; a reset makes all three IDLE. -/
def Obligations.PhasesFollowTheTable : Prop :=
  (∀ (i : Instr) (s t : State) (r : Response), exec i s = .next t → t.resp = some r →
    t.phase (engineOf i) = phaseAfter (opOf i) r.code (s.phase (engineOf i)) ∧
    (needsActive (opOf i) = true → r.code = .ok ∨ r.code = .eIo → s.phase (engineOf i) = 1) ∧
    (∀ w, w ≠ engineOf i → t.phase w = s.phase w)) ∧
  (∀ (s : State) (rest : List HostEvent), s.script = .reset :: rest →
    ∃ t, step s = .next t ∧ ∀ v, t.phase v = 0)

/-- A response's digest is non-empty exactly when a FINAL.V, HASH.V or HASHS.V ended with OK, and then it is
the 4, 8 or 16 bytes of the engine's accumulators, most significant byte first (30_encoding.md rule R80,
10_state.md rule R38). -/
def Obligations.DigestOnlyFromFinishingCommands : Prop :=
  ∀ (i : Instr) (s t : State) (r : Response), exec i s = .next t → t.resp = some r →
    (r.digest ≠ [] ↔ returnsDigest (opOf i) = true ∧ r.code = .ok) ∧
    (r.digest ≠ [] → r.digest = t.digest (engineOf i) ∧ r.digest.length = digestSize (engineOf i))

/-- The block writes no memory: every command leaves the buffer and its length as they were, and only the
stream forms change the source (20_memory.md rule R51). -/
def Obligations.CommandsWriteNoMemory : Prop :=
  ∀ (i : Instr) (s t : State), exec i s = .next t →
    (∀ a, t.env.ibuf.read a = s.env.ibuf.read a) ∧
    t.env.ibuf = s.env.ibuf ∧ t.env.ibufLen = s.env.ibufLen ∧ t.env.ibufPresent = s.env.ibufPresent ∧
    t.env.srcPresent = s.env.srcPresent ∧
    (opOf i ≠ .updates → opOf i ≠ .hashs → t.env.src = s.env.src)

/-- No command stops the machine: exec answers a next state for every command and state, so an undefined
MemRead never occurs, and so does every step (20_memory.md rule R52). A stream command whose source never ends never
completes by 20_memory.md rule R58; that it answers a next state too, one that waits, is the model's choice (log 9),
and that a step with nothing issued or with a waiting command answers the same state is the model's (logs 1 and 9). -/
def Obligations.EveryCommandAnswersNext : Prop :=
  (∀ (i : Instr) (s : State), ∃ t, exec i s = .next t) ∧ (∀ s : State, ∃ t, step s = .next t)

/-- MemRead answers exactly on a present buffer and a range inside it, and then the bytes from addr on in
ascending order (rule R52). -/
def Obligations.MemReadInsideTheBuffer : Prop :=
  ∀ (e : Env) (addr n : Nat),
    ((memRead e addr n).isSome = true ↔ e.ibufPresent = true ∧ addr + n ≤ e.ibufLen.toNat) ∧
    (∀ bs, memRead e addr n = some bs →
      bs.length = n ∧ ∀ i < n, bs[i]? = some (e.ibuf.read (addr + i)))

/-- ERRSEEN is sticky: no event but a reset clears a bit, every packet that ends with an error code sets the bit of
that code and no other, one that ends with OK sets none, bit 0 reads as 0, and a reset clears all (10_state.md rule
R35). -/
def Obligations.ErrorBitsAreSticky : Prop :=
  (∀ (s t : State), step s = .next t → (∀ rest, s.script ≠ .reset :: rest) →
    ∀ k, s.errseen.getLsbD k = true → t.errseen.getLsbD k = true) ∧
  (∀ (s t : State) (p : Packet) (env : Env) (rest : List HostEvent) (r : Response),
    s.script = .command p env :: rest → s.hung = false → step s = .next t → t.resp = some r →
    ∀ k, t.errseen.getLsbD k = (s.errseen.getLsbD k || (decide (k = (respBits r.code).toNat) && decide (k ≠ 0)))) ∧
  (∀ v : BitVec 6, (errSeenRead v).getLsbD 0 = false) ∧
  (∀ (s : State) (rest : List HostEvent), s.script = .reset :: rest →
    ∃ t, step s = .next t ∧ t.errseen = 0)

/-- A register read changes no register, RSP among them, and no port but its own; the numbers of rule R39 show
their registers, zero-extended, while the engine is not IDLE (carry bytes below the count); the phases, RSP and
ERRSEEN always; numbers not in the table read as zero. That the phases show in IDLE is the model's choice,
DEDUCED (log 6), and that only the carry bytes below the count show is rule R31 (log 7). -/
def Obligations.RegisterReadsShowRegisters : Prop :=
  ∀ (s : State) (number : Nat) (rest : List HostEvent), s.script = .regRead number :: rest → s.hung = false →
    ∃ (t : State) (v : Word64), step s = .next t ∧ t.regOut = some v ∧
      t = { s with script := rest, regOut := some v, freeNext := t.freeNext } ∧
      (s.e32.ph ≠ 0 → (number = 0x00 → v = s.e32.acc.setWidth 64) ∧ (number = 0x01 → v = s.e32.len)) ∧
      (s.e64.ph ≠ 0 →
        (number = 0x10 → v = s.e64.acc) ∧ (number = 0x11 → v = s.e64.len) ∧
        (number = 0x12 → ∀ i < s.e64.cnt.toNat, v.extractLsb' (8 * i) 8 = s.e64.cb.toList.getD i 0) ∧
        (number = 0x13 → v = s.e64.cnt.setWidth 64)) ∧
      (s.e128.ph ≠ 0 →
        (number = 0x20 → v = s.e128.accA) ∧ (number = 0x21 → v = s.e128.accB) ∧ (number = 0x22 → v = s.e128.len) ∧
        (number = 0x23 → ∀ i < 8, i < s.e128.cnt.toNat → v.extractLsb' (8 * i) 8 = s.e128.cb.toList.getD i 0) ∧
        (number = 0x24 → ∀ i < 8, 8 + i < s.e128.cnt.toNat →
          v.extractLsb' (8 * i) 8 = s.e128.cb.toList.getD (8 + i) 0) ∧
        (number = 0x25 → v = s.e128.cnt.setWidth 64)) ∧
      (number = 0x02 → v = s.e32.ph.setWidth 64) ∧ (number = 0x14 → v = s.e64.ph.setWidth 64) ∧
      (number = 0x26 → v = s.e128.ph.setWidth 64) ∧ (number = 0x30 → v = s.rsp.setWidth 64) ∧
      (number = 0x31 → v = (s.errseen &&& 0b111110).setWidth 64) ∧
      (number ∉ [0x00, 0x01, 0x02, 0x10, 0x11, 0x12, 0x13, 0x14, 0x20, 0x21, 0x22, 0x23, 0x24, 0x25, 0x26, 0x30, 0x31] →
        v = 0)

/-- The digest port of an engine in phase ACTIVE or DONE shows the bytes of its accumulators, so in DONE, right
after a FINAL.V, HASH.V or HASHS.V that ended with OK, the very bytes of the response; reading it changes no
register (10_state.md rule R38). -/
def Obligations.DigestPortShowsTheDigest : Prop :=
  (∀ (s : State) (v : Engine) (rest : List HostEvent), s.script = .digestRead v :: rest → s.hung = false →
    ∃ t, step s = .next t ∧ t = { s with script := rest, digOut := t.digOut, freeNext := t.freeNext } ∧
      (s.phase v ≠ 0 → t.digOut = some (s.digest v))) ∧
  (∀ (i : Instr) (s t : State) (d : List Byte) (rest : List HostEvent), exec i s = .next t →
    returnsDigest (opOf i) = true → t.resp = some { code := .ok, digest := d } → s.hung = false →
    ∃ u, step { t with script := .digestRead (engineOf i) :: rest } = .next u ∧ u.digOut = some d)

/-- Right after reset the three phases are IDLE, RSP is 0 and ERRSEEN is 0, in State.reset and after a reset
event in any state; nothing is said of the other registers (70_reset_and_hazards.md rule R210). -/
def Obligations.ResetLeavesIdleAndClear : Prop :=
  (State.reset.e32.ph = 0 ∧ State.reset.e64.ph = 0 ∧ State.reset.e128.ph = 0 ∧
    State.reset.rsp = 0 ∧ State.reset.errseen = 0) ∧
  (∀ (s : State) (rest : List HostEvent), s.script = .reset :: rest →
    ∃ t, step s = .next t ∧ t.e32.ph = 0 ∧ t.e64.ph = 0 ∧ t.e128.ph = 0 ∧ t.rsp = 0 ∧ t.errseen = 0)

/-- From reset HASH.V, and HASHS.V on a source that ends with EOF, need no preparation and end with OK and the
digest, and UPDATE.V, UPDATES.V and FINAL.V before INIT.V end with E_STATE on admitted inputs
(70_reset_and_hazards.md rule R212). -/
def Obligations.IncrementalUseNeedsInit : Prop :=
  ∀ (v : Engine) (env : Env) (offset length : Word32),
    env.ibufPresent = true → offset.toNat + length.toNat ≤ env.ibufLen.toNat → env.srcPresent = true →
    let s : State := { State.reset with env := env }
    NextSatisfies (exec (hashCmd v offset length) s)
      (fun t => t.phase v = 2 ∧ t.resp = some { code := .ok, digest := t.digest v }) ∧
    (∀ (bs : List Byte) (rest : List Pull), env.src = bs.map Pull.byte ++ .eof :: rest →
      NextSatisfies (exec .hashs64 s)
        (fun t => t.e64.ph = 2 ∧ t.resp = some { code := .ok, digest := digest64 t.e64 }) ∧
      NextSatisfies (exec .hashs128 s)
        (fun t => t.e128.ph = 2 ∧ t.resp = some { code := .ok, digest := digest128 t.e128 })) ∧
    NextSatisfies (exec (updateCmd v offset length) s) (fun t => t.resp = some { code := .eState, digest := [] }) ∧
    NextSatisfies (exec .updates64 s) (fun t => t.resp = some { code := .eState, digest := [] }) ∧
    NextSatisfies (exec .updates128 s) (fun t => t.resp = some { code := .eState, digest := [] }) ∧
    NextSatisfies (exec (finalCmd v) s) (fun t => t.resp = some { code := .eState, digest := [] })

/-! ### Invariants -/

/-- Every step keeps the invariant of the status registers: no phase is 3, RSP is a code of the table and equals
the response port's, ERRSEEN bit 0 is 0 and the bit of RSP's code is set, a hung command has no response (10_state.md
rules R34 to R36, 60_exceptions.md rule R180, 20_memory.md rule R58; the hang as a field is the model's, log 9). -/
def Obligations.StepsKeepStatusRegisters : Prop :=
  ∀ s t : State, s.StatusOk → step s = .next t → t.StatusOk

/-- The invariant of the status registers holds at reset. -/
def Obligations.ResetHasStatusRegisters : Prop := State.reset.StatusOk

/-- Every step keeps the carry counts in step with the lengths: while no command hangs, a live E64 has CNT64 =
LEN64 mod 8, a live E128 CNT128 = LEN128 mod 16 (42_hash64.md rule R141, 43_hash128.md rule R161). -/
def Obligations.StepsKeepCarryCounts : Prop :=
  ∀ s t : State, s.CarryOk → step s = .next t → t.CarryOk

/-- The invariant of the carry counts holds at reset. -/
def Obligations.ResetHasCarryCounts : Prop := State.reset.CarryOk

/-- Every step keeps the inputs canonical: each buffer, of the running command and of those to come, lists its
cells by rising address, inside its length, none of them 0 (20_memory.md rule R50; the canonical form is the
model's, assumption log 11). -/
def Obligations.StepsKeepInputsCanonical : Prop :=
  ∀ s t : State, s.InputsOk → step s = .next t → t.InputsOk

/-- The inputs are canonical at reset. -/
def Obligations.ResetHasInputsCanonical : Prop := State.reset.InputsOk
end

