-- ==== Sys2Proof/Laws/Absorb.lean ====
section
/-! SUPPORT. What absorbing bytes does to the length, the carry count and the phase of an engine (41_hash32.md rule R121, 42_hash64.md rule R141, 43_hash128.md rule R161). -/

namespace Sys2Proof.Machine

/-! ### The bodies of INIT and FINAL, field by field -/

@[simp] theorem initBody32_acc (e : E32) : (initBody32 e).acc = 0 := rfl
@[simp] theorem initBody32_len (e : E32) : (initBody32 e).len = 0 := rfl
@[simp] theorem initBody32_ph (e : E32) : (initBody32 e).ph = phActive := rfl
@[simp] theorem finalBody32_len (e : E32) : (finalBody32 e).len = e.len := by rw [finalBody32]
@[simp] theorem finalBody32_ph (e : E32) : (finalBody32 e).ph = phDone := by rw [finalBody32]

@[simp] theorem initBody64_acc (e : E64) : (initBody64 e).acc = 0 := rfl
@[simp] theorem initBody64_len (e : E64) : (initBody64 e).len = 0 := rfl
@[simp] theorem initBody64_cb (e : E64) : (initBody64 e).cb = e.cb := rfl
@[simp] theorem initBody64_cnt (e : E64) : (initBody64 e).cnt = 0 := rfl
@[simp] theorem initBody64_ph (e : E64) : (initBody64 e).ph = phActive := rfl
@[simp] theorem finalBody64_len (e : E64) : (finalBody64 e).len = e.len := by rw [finalBody64]
@[simp] theorem finalBody64_cb (e : E64) : (finalBody64 e).cb = e.cb := by rw [finalBody64]
@[simp] theorem finalBody64_cnt (e : E64) : (finalBody64 e).cnt = e.cnt := by rw [finalBody64]
@[simp] theorem finalBody64_ph (e : E64) : (finalBody64 e).ph = phDone := by rw [finalBody64]

@[simp] theorem initBody128_accA (e : E128) : (initBody128 e).accA = 0 := rfl
@[simp] theorem initBody128_accB (e : E128) : (initBody128 e).accB = 0 := rfl
@[simp] theorem initBody128_len (e : E128) : (initBody128 e).len = 0 := rfl
@[simp] theorem initBody128_cb (e : E128) : (initBody128 e).cb = e.cb := rfl
@[simp] theorem initBody128_cnt (e : E128) : (initBody128 e).cnt = 0 := rfl
@[simp] theorem initBody128_ph (e : E128) : (initBody128 e).ph = phActive := rfl
@[simp] theorem finalBody128_len (e : E128) : (finalBody128 e).len = e.len := by rw [finalBody128]
@[simp] theorem finalBody128_cb (e : E128) : (finalBody128 e).cb = e.cb := by rw [finalBody128]
@[simp] theorem finalBody128_cnt (e : E128) : (finalBody128 e).cnt = e.cnt := by rw [finalBody128]
@[simp] theorem finalBody128_ph (e : E128) : (finalBody128 e).ph = phDone := by rw [finalBody128]

/-! ### Absorbing -/

@[simp] theorem absorb32_ph (e : E32) (bs : List Byte) : (absorb32 e bs).ph = e.ph := rfl
@[simp] theorem absorb32_len (e : E32) (bs : List Byte) :
    (absorb32 e bs).len = e.len + BitVec.ofNat 64 bs.length := rfl

/-- Absorbing nothing leaves E32 as it is. -/
@[simp] theorem absorb32_nil (e : E32) : absorb32 e [] = e := by simp [absorb32, absorbWords32, wordsOf]

@[simp] theorem absorb64_ph (e : E64) (b : Byte) : (absorb64 e b).ph = e.ph := by
  simp only [absorb64]; split <;> rfl

@[simp] theorem absorb64_len (e : E64) (b : Byte) : (absorb64 e b).len = e.len + 1 := by
  simp only [absorb64]; split <;> rfl

/-- The carry count counts modulo 8. -/
@[simp] theorem absorb64_cnt (e : E64) (b : Byte) : (absorb64 e b).cnt = e.cnt + 1 := by
  simp only [absorb64]
  split_ifs with h
  · show 0 = e.cnt + 1
    rw [h]
    rfl
  · rfl

@[simp] theorem absorbAll64_nil (e : E64) : absorbAll64 e [] = e := rfl

theorem absorbAll64_append (e : E64) (as bs : List Byte) :
    absorbAll64 e (as ++ bs) = absorbAll64 (absorbAll64 e as) bs := List.foldl_append ..

@[simp] theorem absorbAll64_ph (e : E64) (bs : List Byte) : (absorbAll64 e bs).ph = e.ph := by
  induction bs generalizing e with
  | nil => rfl
  | cons b bs ih => exact (ih (absorb64 e b)).trans (absorb64_ph e b)

@[simp] theorem absorbAll64_len (e : E64) (bs : List Byte) :
    (absorbAll64 e bs).len = e.len + BitVec.ofNat 64 bs.length := by
  induction bs generalizing e with
  | nil => simp
  | cons b bs ih =>
    refine (ih (absorb64 e b)).trans ?_
    rw [absorb64_len, List.length_cons, BitVec.add_assoc, Nat.add_comm bs.length, BitVec.ofNat_add]
    rfl

@[simp] theorem absorbAll64_cnt (e : E64) (bs : List Byte) :
    (absorbAll64 e bs).cnt = e.cnt + BitVec.ofNat 3 bs.length := by
  induction bs generalizing e with
  | nil => simp
  | cons b bs ih =>
    refine (ih (absorb64 e b)).trans ?_
    rw [absorb64_cnt, List.length_cons, BitVec.add_assoc, Nat.add_comm bs.length, BitVec.ofNat_add]
    rfl

@[simp] theorem absorb128_ph (e : E128) (b : Byte) : (absorb128 e b).ph = e.ph := by
  simp only [absorb128]; split <;> rfl

@[simp] theorem absorb128_len (e : E128) (b : Byte) : (absorb128 e b).len = e.len + 1 := by
  simp only [absorb128]; split <;> rfl

/-- The carry count counts modulo 16. -/
@[simp] theorem absorb128_cnt (e : E128) (b : Byte) : (absorb128 e b).cnt = e.cnt + 1 := by
  simp only [absorb128]
  split_ifs with h
  · show 0 = e.cnt + 1
    rw [h]
    rfl
  · rfl

@[simp] theorem absorbAll128_nil (e : E128) : absorbAll128 e [] = e := rfl

theorem absorbAll128_append (e : E128) (as bs : List Byte) :
    absorbAll128 e (as ++ bs) = absorbAll128 (absorbAll128 e as) bs := List.foldl_append ..

@[simp] theorem absorbAll128_ph (e : E128) (bs : List Byte) : (absorbAll128 e bs).ph = e.ph := by
  induction bs generalizing e with
  | nil => rfl
  | cons b bs ih => exact (ih (absorb128 e b)).trans (absorb128_ph e b)

@[simp] theorem absorbAll128_len (e : E128) (bs : List Byte) :
    (absorbAll128 e bs).len = e.len + BitVec.ofNat 64 bs.length := by
  induction bs generalizing e with
  | nil => simp
  | cons b bs ih =>
    refine (ih (absorb128 e b)).trans ?_
    rw [absorb128_len, List.length_cons, BitVec.add_assoc, Nat.add_comm bs.length, BitVec.ofNat_add]
    rfl

@[simp] theorem absorbAll128_cnt (e : E128) (bs : List Byte) :
    (absorbAll128 e bs).cnt = e.cnt + BitVec.ofNat 4 bs.length := by
  induction bs generalizing e with
  | nil => simp
  | cons b bs ih =>
    refine (ih (absorb128 e b)).trans ?_
    rw [absorb128_cnt, List.length_cons, BitVec.add_assoc, Nat.add_comm bs.length, BitVec.ofNat_add]
    rfl

end Sys2Proof.Machine
end

