-- ==== Sys2Proof/Laws/Memory.lean ====
section
/-! SUPPORT. The laws of a buffer's bytes: every memory operation keeps the canonical form, a read after a write, and equal canonical memories. -/

namespace Sys2Proof.Machine

@[simp] theorem Memory.read_nil (x : Nat) : Memory.read [] x = 0 := rfl

theorem Memory.read_cons (a : Nat) (b : Byte) (m : Memory) (x : Nat) :
    Memory.read ((a, b) :: m) x = if a = x then b else Memory.read m x := rfl

theorem Memory.wfFrom_cons (lo a : Nat) (b : Byte) (m : Memory) :
    Memory.wfFrom lo ((a, b) :: m) = true ↔ lo ≤ a ∧ b ≠ 0 ∧ Memory.wfFrom (a + 1) m = true := by
  simp [Memory.wfFrom, and_assoc]

/-- A canonical memory is canonical from every lower address. -/
theorem Memory.wfFrom_mono {lo lo' : Nat} {m : Memory} (h : lo' ≤ lo) (hw : Memory.wfFrom lo m = true) :
    Memory.wfFrom lo' m = true := by
  cases m with
  | nil => rfl
  | cons c m =>
    obtain ⟨a, b⟩ := c
    rw [Memory.wfFrom_cons] at hw ⊢
    exact ⟨h.trans hw.1, hw.2⟩

/-- Below its first address a canonical memory reads 0. -/
theorem Memory.read_of_lt {lo : Nat} {m : Memory} (hw : Memory.wfFrom lo m = true) {x : Nat} (hx : x < lo) :
    m.read x = 0 := by
  induction m generalizing lo with
  | nil => rfl
  | cons c m ih =>
    obtain ⟨a, b⟩ := c
    rw [Memory.wfFrom_cons] at hw
    rw [Memory.read_cons, if_neg (by omega)]
    exact ih hw.2.2 (by omega)

/-- A write keeps the canonical form. -/
theorem Memory.write_wfFrom {lo : Nat} {m : Memory} (hw : Memory.wfFrom lo m = true) {x : Nat} (hx : lo ≤ x)
    (v : Byte) : Memory.wfFrom lo (m.write x v) = true := by
  induction m generalizing lo with
  | nil =>
    unfold Memory.write
    split_ifs with hv
    · rfl
    · exact (Memory.wfFrom_cons ..).2 ⟨hx, hv, rfl⟩
  | cons c m ih =>
    obtain ⟨a, b⟩ := c
    have hc := (Memory.wfFrom_cons lo a b m).1 hw
    unfold Memory.write
    split_ifs with h1 h2 h3 h4
    · exact hw
    · exact (Memory.wfFrom_cons ..).2 ⟨hx, h2, (Memory.wfFrom_cons ..).2 ⟨h1, hc.2⟩⟩
    · exact Memory.wfFrom_mono (by omega) hc.2.2
    · exact (Memory.wfFrom_cons ..).2 ⟨hx, h4, h3 ▸ hc.2.2⟩
    · exact (Memory.wfFrom_cons ..).2 ⟨hc.1, hc.2.1, ih hc.2.2 (by omega)⟩

theorem Memory.write_wf {m : Memory} (hw : m.wf = true) (x : Nat) (v : Byte) : (m.write x v).wf = true :=
  Memory.write_wfFrom hw (Nat.zero_le x) v

/-- A read after a write gives the byte written at its address, and every other byte as before. -/
theorem Memory.read_write {m : Memory} (hw : m.wf = true) (x : Nat) (v : Byte) (y : Nat) :
    (m.write x v).read y = if x = y then v else m.read y := by
  unfold Memory.wf at hw
  generalize 0 = lo at hw
  induction m generalizing lo with
  | nil =>
    unfold Memory.write
    split_ifs with hv hy hy
    · exact hv.symm
    · rfl
    · rw [hy, Memory.read_cons, if_pos rfl]
    · rw [Memory.read_cons, if_neg hy]
  | cons c m ih =>
    obtain ⟨a, b⟩ := c
    have hc := (Memory.wfFrom_cons lo a b m).1 hw
    have above : Memory.read m a = 0 := Memory.read_of_lt hc.2.2 (Nat.lt_succ_self _)
    have below (h : x < a) : Memory.read ((a, b) :: m) x = 0 := by
      rw [Memory.read_cons, if_neg (by omega)]
      exact Memory.read_of_lt hc.2.2 (by omega)
    unfold Memory.write
    by_cases h1 : x < a
    · rw [if_pos h1]
      by_cases hv : v = 0
      · rw [if_pos hv]
        split_ifs with hy
        · rw [← hy, below h1, hv]
        · rfl
      · rw [if_neg hv, Memory.read_cons]
    · rw [if_neg h1]
      by_cases h2 : x = a
      · subst h2
        by_cases hv : v = 0
        · rw [if_pos rfl, if_pos hv, Memory.read_cons]
          split_ifs with hy
          · rw [← hy, above, hv]
          · rfl
        · rw [if_pos rfl, if_neg hv, Memory.read_cons, Memory.read_cons]
          split_ifs <;> rfl
      · rw [if_neg h2, Memory.read_cons, Memory.read_cons, ih _ hc.2.2]
        split_ifs <;> first | rfl | omega

theorem Memory.load_wf {m : Memory} (hw : m.wf = true) (a : Nat) (bs : List Byte) : (m.load a bs).wf = true := by
  induction bs generalizing m a with
  | nil => exact hw
  | cons b bs ih => exact ih (Memory.write_wf hw a b) (a + 1)

/-- Loading places exactly its bytes. -/
theorem Memory.read_load {m : Memory} (hw : m.wf = true) (a : Nat) (bs : List Byte) (y : Nat) :
    (m.load a bs).read y = if a ≤ y ∧ y < a + bs.length then bs.getD (y - a) 0 else m.read y := by
  induction bs generalizing m a with
  | nil => simp only [Memory.load, List.length_nil]; rw [if_neg (by omega)]
  | cons b bs ih =>
    rw [Memory.load, ih (Memory.write_wf hw a b), Memory.read_write hw]
    simp only [List.length_cons]
    by_cases h1 : a + 1 ≤ y ∧ y < a + 1 + bs.length
    · rw [if_pos h1, if_pos (by omega), show y - a = (y - (a + 1)) + 1 by omega, List.getD_cons_succ]
    · rw [if_neg h1]
      by_cases h2 : a = y
      · subst h2
        rw [if_pos rfl, if_pos (by omega), Nat.sub_self, List.getD_cons_zero]
      · rw [if_neg h2, if_neg (by omega)]

theorem Memory.ofBytes_wf (bs : List Byte) : (Memory.ofBytes bs).wf = true := Memory.load_wf rfl 0 bs

theorem Memory.read_ofBytes (bs : List Byte) (y : Nat) : (Memory.ofBytes bs).read y = bs.getD y 0 := by
  rw [Memory.ofBytes, Memory.read_load rfl]
  by_cases h : y < bs.length
  · simp [h]
  · rw [if_neg (by omega), Memory.read_nil, List.getD_eq_default _ _ (by omega)]

/-- Equal bytes at every address make equal canonical memories. -/
theorem Memory.eq_of_read_eq {m m' : Memory} (hw : m.wf = true) (hw' : m'.wf = true)
    (h : ∀ y, m.read y = m'.read y) : m = m' := by
  unfold Memory.wf at hw hw'
  generalize 0 = lo at hw hw'
  induction m generalizing lo m' with
  | nil =>
    cases m' with
    | nil => rfl
    | cons c m' =>
      obtain ⟨a, b⟩ := c
      have hc := (Memory.wfFrom_cons lo a b m').1 hw'
      exact absurd (h a).symm (by simpa [Memory.read_cons] using hc.2.1)
  | cons c m ih =>
    obtain ⟨a, b⟩ := c
    have hc := (Memory.wfFrom_cons lo a b m).1 hw
    cases m' with
    | nil => exact absurd (h a) (by simpa [Memory.read_cons] using hc.2.1)
    | cons c' m' =>
      obtain ⟨a', b'⟩ := c'
      have hc' := (Memory.wfFrom_cons lo a' b' m').1 hw'
      have haa : a = a' := by
        rcases Nat.lt_trichotomy a a' with hlt | heq | hlt
        · have := h a
          rw [Memory.read_cons, if_pos rfl, Memory.read_cons, if_neg (by omega),
            Memory.read_of_lt hc'.2.2 (by omega)] at this
          exact absurd this hc.2.1
        · exact heq
        · have := h a'
          rw [Memory.read_cons, if_neg (by omega), Memory.read_of_lt hc.2.2 (by omega),
            Memory.read_cons, if_pos rfl] at this
          exact absurd this.symm hc'.2.1
      subst haa
      have hbb : b = b' := by simpa [Memory.read_cons] using h a
      subst hbb
      refine congrArg _ (ih (fun y => ?_) (a + 1) hc.2.2 hc'.2.2)
      by_cases hy : a = y
      · subst hy
        rw [Memory.read_of_lt hc.2.2 (Nat.lt_succ_self _), Memory.read_of_lt hc'.2.2 (Nat.lt_succ_self _)]
      · simpa [Memory.read_cons, hy] using h y

@[simp] theorem bytesAt_length (m : Memory) (addr n : Nat) : (bytesAt m addr n).length = n := by simp [bytesAt]

/-- The bytes of a buffer loaded with `bs` are `bs`. -/
theorem bytesAt_ofBytes (bs : List Byte) : bytesAt (Memory.ofBytes bs) 0 bs.length = bs := by
  refine List.ext_getElem (by simp) fun i h1 h2 => ?_
  simp [bytesAt, Memory.read_ofBytes, List.getD_eq_getElem?_getD, h2]

/-- Buffers that show the same bytes give the same sequence. -/
theorem bytesAt_congr {m m' : Memory} {a a' n : Nat} (h : ∀ i < n, m.read (a + i) = m'.read (a' + i)) :
    bytesAt m a n = bytesAt m' a' n :=
  List.map_congr_left fun i hi => h i (List.mem_range.1 hi)

theorem memRead_of_inside {e : Env} {addr n : Nat} (hp : e.ibufPresent = true)
    (hr : addr + n ≤ e.ibufLen.toNat) : memRead e addr n = some (bytesAt e.ibuf addr n) := by
  simp [memRead, hp, hr]

end Sys2Proof.Machine
end

