-- ==== Sys2Proof/Laws/State.lean ====
section
/-! SUPPORT. What each named update of State does to each field: one lemma per field per update. -/

namespace Sys2Proof.Machine

/-! ### complete -/

@[simp] theorem complete_e32 (c : RespCode) (d : List Byte) (s : State) : (complete c d s).e32 = s.e32 := rfl
@[simp] theorem complete_e64 (c : RespCode) (d : List Byte) (s : State) : (complete c d s).e64 = s.e64 := rfl
@[simp] theorem complete_e128 (c : RespCode) (d : List Byte) (s : State) : (complete c d s).e128 = s.e128 := rfl
@[simp] theorem complete_rsp (c : RespCode) (d : List Byte) (s : State) : (complete c d s).rsp = respBits c := rfl
@[simp] theorem complete_errseen (c : RespCode) (d : List Byte) (s : State) : (complete c d s).errseen = errSeenAfter s.errseen c := rfl
@[simp] theorem complete_resp (c : RespCode) (d : List Byte) (s : State) : (complete c d s).resp = some { code := c, digest := d } := rfl
@[simp] theorem complete_regOut (c : RespCode) (d : List Byte) (s : State) : (complete c d s).regOut = s.regOut := rfl
@[simp] theorem complete_digOut (c : RespCode) (d : List Byte) (s : State) : (complete c d s).digOut = s.digOut := rfl
@[simp] theorem complete_env (c : RespCode) (d : List Byte) (s : State) : (complete c d s).env = s.env := rfl
@[simp] theorem complete_script (c : RespCode) (d : List Byte) (s : State) : (complete c d s).script = s.script := rfl
@[simp] theorem complete_hung (c : RespCode) (d : List Byte) (s : State) : (complete c d s).hung = s.hung := rfl
@[simp] theorem complete_freeNext (c : RespCode) (d : List Byte) (s : State) : (complete c d s).freeNext = s.freeNext := rfl

/-! ### respondOk -/

@[simp] theorem respondOk_e32 (d : List Byte) (s : State) : (respondOk d s).e32 = s.e32 := rfl
@[simp] theorem respondOk_e64 (d : List Byte) (s : State) : (respondOk d s).e64 = s.e64 := rfl
@[simp] theorem respondOk_e128 (d : List Byte) (s : State) : (respondOk d s).e128 = s.e128 := rfl
@[simp] theorem respondOk_rsp (d : List Byte) (s : State) : (respondOk d s).rsp = 0 := rfl
@[simp] theorem respondOk_errseen (d : List Byte) (s : State) : (respondOk d s).errseen = s.errseen := by
  show s.errseen ||| 0#6 = s.errseen
  simp
@[simp] theorem respondOk_resp (d : List Byte) (s : State) : (respondOk d s).resp = some { code := .ok, digest := d } := rfl
@[simp] theorem respondOk_regOut (d : List Byte) (s : State) : (respondOk d s).regOut = s.regOut := rfl
@[simp] theorem respondOk_digOut (d : List Byte) (s : State) : (respondOk d s).digOut = s.digOut := rfl
@[simp] theorem respondOk_env (d : List Byte) (s : State) : (respondOk d s).env = s.env := rfl
@[simp] theorem respondOk_script (d : List Byte) (s : State) : (respondOk d s).script = s.script := rfl
@[simp] theorem respondOk_hung (d : List Byte) (s : State) : (respondOk d s).hung = s.hung := rfl
@[simp] theorem respondOk_freeNext (d : List Byte) (s : State) : (respondOk d s).freeNext = s.freeNext := rfl

/-! ### raise -/

@[simp] theorem raise_e32 (c : RespCode) (s : State) : (raise c s).e32 = s.e32 := rfl
@[simp] theorem raise_e64 (c : RespCode) (s : State) : (raise c s).e64 = s.e64 := rfl
@[simp] theorem raise_e128 (c : RespCode) (s : State) : (raise c s).e128 = s.e128 := rfl
@[simp] theorem raise_rsp (c : RespCode) (s : State) : (raise c s).rsp = respBits c := rfl
@[simp] theorem raise_errseen (c : RespCode) (s : State) : (raise c s).errseen = errSeenAfter s.errseen c := rfl
@[simp] theorem raise_resp (c : RespCode) (s : State) : (raise c s).resp = some { code := c, digest := [] } := rfl
@[simp] theorem raise_regOut (c : RespCode) (s : State) : (raise c s).regOut = s.regOut := rfl
@[simp] theorem raise_digOut (c : RespCode) (s : State) : (raise c s).digOut = s.digOut := rfl
@[simp] theorem raise_env (c : RespCode) (s : State) : (raise c s).env = s.env := rfl
@[simp] theorem raise_script (c : RespCode) (s : State) : (raise c s).script = s.script := rfl
@[simp] theorem raise_hung (c : RespCode) (s : State) : (raise c s).hung = s.hung := rfl
@[simp] theorem raise_freeNext (c : RespCode) (s : State) : (raise c s).freeNext = s.freeNext := rfl

/-! ### discard64 -/

@[simp] theorem discard64_e32 (ph : BitVec 2) (s : State) : (discard64 ph s).e32 = s.e32 := rfl
@[simp] theorem discard64_e64 (ph : BitVec 2) (s : State) : (discard64 ph s).e64 = unspecified64 s.freeNext ph := rfl
@[simp] theorem discard64_e128 (ph : BitVec 2) (s : State) : (discard64 ph s).e128 = s.e128 := rfl
@[simp] theorem discard64_rsp (ph : BitVec 2) (s : State) : (discard64 ph s).rsp = s.rsp := rfl
@[simp] theorem discard64_errseen (ph : BitVec 2) (s : State) : (discard64 ph s).errseen = s.errseen := rfl
@[simp] theorem discard64_resp (ph : BitVec 2) (s : State) : (discard64 ph s).resp = s.resp := rfl
@[simp] theorem discard64_regOut (ph : BitVec 2) (s : State) : (discard64 ph s).regOut = s.regOut := rfl
@[simp] theorem discard64_digOut (ph : BitVec 2) (s : State) : (discard64 ph s).digOut = s.digOut := rfl
@[simp] theorem discard64_env (ph : BitVec 2) (s : State) : (discard64 ph s).env = s.env := rfl
@[simp] theorem discard64_script (ph : BitVec 2) (s : State) : (discard64 ph s).script = s.script := rfl
@[simp] theorem discard64_hung (ph : BitVec 2) (s : State) : (discard64 ph s).hung = s.hung := rfl
@[simp] theorem discard64_freeNext (ph : BitVec 2) (s : State) : (discard64 ph s).freeNext = s.freeNext + 4 := rfl

/-! ### discard128 -/

@[simp] theorem discard128_e32 (ph : BitVec 2) (s : State) : (discard128 ph s).e32 = s.e32 := rfl
@[simp] theorem discard128_e64 (ph : BitVec 2) (s : State) : (discard128 ph s).e64 = s.e64 := rfl
@[simp] theorem discard128_e128 (ph : BitVec 2) (s : State) : (discard128 ph s).e128 = unspecified128 s.freeNext ph := rfl
@[simp] theorem discard128_rsp (ph : BitVec 2) (s : State) : (discard128 ph s).rsp = s.rsp := rfl
@[simp] theorem discard128_errseen (ph : BitVec 2) (s : State) : (discard128 ph s).errseen = s.errseen := rfl
@[simp] theorem discard128_resp (ph : BitVec 2) (s : State) : (discard128 ph s).resp = s.resp := rfl
@[simp] theorem discard128_regOut (ph : BitVec 2) (s : State) : (discard128 ph s).regOut = s.regOut := rfl
@[simp] theorem discard128_digOut (ph : BitVec 2) (s : State) : (discard128 ph s).digOut = s.digOut := rfl
@[simp] theorem discard128_env (ph : BitVec 2) (s : State) : (discard128 ph s).env = s.env := rfl
@[simp] theorem discard128_script (ph : BitVec 2) (s : State) : (discard128 ph s).script = s.script := rfl
@[simp] theorem discard128_hung (ph : BitVec 2) (s : State) : (discard128 ph s).hung = s.hung := rfl
@[simp] theorem discard128_freeNext (ph : BitVec 2) (s : State) : (discard128 ph s).freeNext = s.freeNext + 6 := rfl

/-! ### resetBlock -/

@[simp] theorem resetBlock_e32 (s : State) : (resetBlock s).e32 = unspecified32 s.freeNext phIdle := rfl
@[simp] theorem resetBlock_e64 (s : State) : (resetBlock s).e64 = unspecified64 (s.freeNext + 2) phIdle := rfl
@[simp] theorem resetBlock_e128 (s : State) : (resetBlock s).e128 = unspecified128 (s.freeNext + 6) phIdle := rfl
@[simp] theorem resetBlock_rsp (s : State) : (resetBlock s).rsp = 0 := rfl
@[simp] theorem resetBlock_errseen (s : State) : (resetBlock s).errseen = 0 := rfl
@[simp] theorem resetBlock_resp (s : State) : (resetBlock s).resp = none := rfl
@[simp] theorem resetBlock_regOut (s : State) : (resetBlock s).regOut = none := rfl
@[simp] theorem resetBlock_digOut (s : State) : (resetBlock s).digOut = none := rfl
@[simp] theorem resetBlock_env (s : State) : (resetBlock s).env = s.env := rfl
@[simp] theorem resetBlock_script (s : State) : (resetBlock s).script = s.script := rfl
@[simp] theorem resetBlock_hung (s : State) : (resetBlock s).hung = false := rfl
@[simp] theorem resetBlock_freeNext (s : State) : (resetBlock s).freeNext = s.freeNext + 12 := rfl

/-! ### pulledTo -/

@[simp] theorem pulledTo_e32 (r : List Pull) (s : State) : (pulledTo r s).e32 = s.e32 := rfl
@[simp] theorem pulledTo_e64 (r : List Pull) (s : State) : (pulledTo r s).e64 = s.e64 := rfl
@[simp] theorem pulledTo_e128 (r : List Pull) (s : State) : (pulledTo r s).e128 = s.e128 := rfl
@[simp] theorem pulledTo_rsp (r : List Pull) (s : State) : (pulledTo r s).rsp = s.rsp := rfl
@[simp] theorem pulledTo_errseen (r : List Pull) (s : State) : (pulledTo r s).errseen = s.errseen := rfl
@[simp] theorem pulledTo_resp (r : List Pull) (s : State) : (pulledTo r s).resp = s.resp := rfl
@[simp] theorem pulledTo_regOut (r : List Pull) (s : State) : (pulledTo r s).regOut = s.regOut := rfl
@[simp] theorem pulledTo_digOut (r : List Pull) (s : State) : (pulledTo r s).digOut = s.digOut := rfl
@[simp] theorem pulledTo_env (r : List Pull) (s : State) : (pulledTo r s).env = { s.env with src := r } := rfl
@[simp] theorem pulledTo_script (r : List Pull) (s : State) : (pulledTo r s).script = s.script := rfl
@[simp] theorem pulledTo_hung (r : List Pull) (s : State) : (pulledTo r s).hung = s.hung := rfl
@[simp] theorem pulledTo_freeNext (r : List Pull) (s : State) : (pulledTo r s).freeNext = s.freeNext := rfl

/-! ### hang -/

@[simp] theorem hang_e32 (s : State) : (hang s).e32 = s.e32 := rfl
@[simp] theorem hang_e64 (s : State) : (hang s).e64 = s.e64 := rfl
@[simp] theorem hang_e128 (s : State) : (hang s).e128 = s.e128 := rfl
@[simp] theorem hang_rsp (s : State) : (hang s).rsp = s.rsp := rfl
@[simp] theorem hang_errseen (s : State) : (hang s).errseen = s.errseen := rfl
@[simp] theorem hang_resp (s : State) : (hang s).resp = none := rfl
@[simp] theorem hang_regOut (s : State) : (hang s).regOut = s.regOut := rfl
@[simp] theorem hang_digOut (s : State) : (hang s).digOut = s.digOut := rfl
@[simp] theorem hang_env (s : State) : (hang s).env = s.env := rfl
@[simp] theorem hang_script (s : State) : (hang s).script = s.script := rfl
@[simp] theorem hang_hung (s : State) : (hang s).hung = true := rfl
@[simp] theorem hang_freeNext (s : State) : (hang s).freeNext = s.freeNext := rfl

/-! ### readRegister -/

@[simp] theorem readRegister_e32 (n : Nat) (s : State) : (readRegister n s).e32 = s.e32 := rfl
@[simp] theorem readRegister_e64 (n : Nat) (s : State) : (readRegister n s).e64 = s.e64 := rfl
@[simp] theorem readRegister_e128 (n : Nat) (s : State) : (readRegister n s).e128 = s.e128 := rfl
@[simp] theorem readRegister_rsp (n : Nat) (s : State) : (readRegister n s).rsp = s.rsp := rfl
@[simp] theorem readRegister_errseen (n : Nat) (s : State) : (readRegister n s).errseen = s.errseen := rfl
@[simp] theorem readRegister_resp (n : Nat) (s : State) : (readRegister n s).resp = s.resp := rfl
@[simp] theorem readRegister_regOut (n : Nat) (s : State) : (readRegister n s).regOut = some (regValue s (Config.freeValue s.freeNext) n) := rfl
@[simp] theorem readRegister_digOut (n : Nat) (s : State) : (readRegister n s).digOut = s.digOut := rfl
@[simp] theorem readRegister_env (n : Nat) (s : State) : (readRegister n s).env = s.env := rfl
@[simp] theorem readRegister_script (n : Nat) (s : State) : (readRegister n s).script = s.script := rfl
@[simp] theorem readRegister_hung (n : Nat) (s : State) : (readRegister n s).hung = s.hung := rfl
@[simp] theorem readRegister_freeNext (n : Nat) (s : State) : (readRegister n s).freeNext = s.freeNext + 1 := rfl

/-! ### readDigest -/

@[simp] theorem readDigest_e32 (v : Engine) (s : State) : (readDigest v s).e32 = s.e32 := rfl
@[simp] theorem readDigest_e64 (v : Engine) (s : State) : (readDigest v s).e64 = s.e64 := rfl
@[simp] theorem readDigest_e128 (v : Engine) (s : State) : (readDigest v s).e128 = s.e128 := rfl
@[simp] theorem readDigest_rsp (v : Engine) (s : State) : (readDigest v s).rsp = s.rsp := rfl
@[simp] theorem readDigest_errseen (v : Engine) (s : State) : (readDigest v s).errseen = s.errseen := rfl
@[simp] theorem readDigest_resp (v : Engine) (s : State) : (readDigest v s).resp = s.resp := rfl
@[simp] theorem readDigest_regOut (v : Engine) (s : State) : (readDigest v s).regOut = s.regOut := rfl
@[simp] theorem readDigest_digOut (v : Engine) (s : State) : (readDigest v s).digOut = some (digestValue s (Config.freeValue s.freeNext) (Config.freeValue (s.freeNext + 1)) v) := rfl
@[simp] theorem readDigest_env (v : Engine) (s : State) : (readDigest v s).env = s.env := rfl
@[simp] theorem readDigest_script (v : Engine) (s : State) : (readDigest v s).script = s.script := rfl
@[simp] theorem readDigest_hung (v : Engine) (s : State) : (readDigest v s).hung = s.hung := rfl
@[simp] theorem readDigest_freeNext (v : Engine) (s : State) : (readDigest v s).freeNext = s.freeNext + 2 := rfl

/-! ### acceptCommand -/

@[simp] theorem acceptCommand_e32 (env : Env) (rest : List HostEvent) (s : State) : (acceptCommand env rest s).e32 = s.e32 := rfl
@[simp] theorem acceptCommand_e64 (env : Env) (rest : List HostEvent) (s : State) : (acceptCommand env rest s).e64 = s.e64 := rfl
@[simp] theorem acceptCommand_e128 (env : Env) (rest : List HostEvent) (s : State) : (acceptCommand env rest s).e128 = s.e128 := rfl
@[simp] theorem acceptCommand_rsp (env : Env) (rest : List HostEvent) (s : State) : (acceptCommand env rest s).rsp = s.rsp := rfl
@[simp] theorem acceptCommand_errseen (env : Env) (rest : List HostEvent) (s : State) : (acceptCommand env rest s).errseen = s.errseen := rfl
@[simp] theorem acceptCommand_resp (env : Env) (rest : List HostEvent) (s : State) : (acceptCommand env rest s).resp = s.resp := rfl
@[simp] theorem acceptCommand_regOut (env : Env) (rest : List HostEvent) (s : State) : (acceptCommand env rest s).regOut = s.regOut := rfl
@[simp] theorem acceptCommand_digOut (env : Env) (rest : List HostEvent) (s : State) : (acceptCommand env rest s).digOut = s.digOut := rfl
@[simp] theorem acceptCommand_env (env : Env) (rest : List HostEvent) (s : State) : (acceptCommand env rest s).env = env := rfl
@[simp] theorem acceptCommand_script (env : Env) (rest : List HostEvent) (s : State) : (acceptCommand env rest s).script = rest := rfl
@[simp] theorem acceptCommand_hung (env : Env) (rest : List HostEvent) (s : State) : (acceptCommand env rest s).hung = s.hung := rfl
@[simp] theorem acceptCommand_freeNext (env : Env) (rest : List HostEvent) (s : State) : (acceptCommand env rest s).freeNext = s.freeNext := rfl

/-! ### issueNext -/

@[simp] theorem issueNext_e32 (p : Packet) (s : State) : (issueNext p s).e32 = s.e32 := rfl
@[simp] theorem issueNext_e64 (p : Packet) (s : State) : (issueNext p s).e64 = s.e64 := rfl
@[simp] theorem issueNext_e128 (p : Packet) (s : State) : (issueNext p s).e128 = s.e128 := rfl
@[simp] theorem issueNext_rsp (p : Packet) (s : State) : (issueNext p s).rsp = s.rsp := rfl
@[simp] theorem issueNext_errseen (p : Packet) (s : State) : (issueNext p s).errseen = s.errseen := rfl
@[simp] theorem issueNext_resp (p : Packet) (s : State) : (issueNext p s).resp = s.resp := rfl
@[simp] theorem issueNext_regOut (p : Packet) (s : State) : (issueNext p s).regOut = s.regOut := rfl
@[simp] theorem issueNext_digOut (p : Packet) (s : State) : (issueNext p s).digOut = s.digOut := rfl
@[simp] theorem issueNext_env (p : Packet) (s : State) : (issueNext p s).env = s.env := rfl
@[simp] theorem issueNext_script (p : Packet) (s : State) : (issueNext p s).script = .command p s.env :: s.script := rfl
@[simp] theorem issueNext_hung (p : Packet) (s : State) : (issueNext p s).hung = false := rfl
@[simp] theorem issueNext_freeNext (p : Packet) (s : State) : (issueNext p s).freeNext = s.freeNext := rfl

end Sys2Proof.Machine
end

