-- ==== Sys2Proof/Laws/Operands.lean ====
section
/-! SUPPORT. What the admission checks, the buffer range and the pull loop can do. -/

namespace Sys2Proof.Machine

@[simp] theorem afterChecks_nil (s : State) (run : Host.Outcome State Fault Refusal) : afterChecks [] s run = run := rfl

@[simp] theorem afterChecks_some (c : RespCode) (rest : List (Option RespCode)) (s : State)
    (run : Host.Outcome State Fault Refusal) : afterChecks (some c :: rest) s run = .next (raise c s) := rfl

@[simp] theorem afterChecks_none (rest : List (Option RespCode)) (s : State) (run : Host.Outcome State Fault Refusal) :
    afterChecks (none :: rest) s run = afterChecks rest s run := rfl

theorem checkBuffer_absent {e : Env} (h : e.ibufPresent = false) (o l : Word32) :
    checkBuffer e o l = some .eArg := by simp [checkBuffer, h]

theorem checkBuffer_outside {e : Env} {o l : Word32} (h : e.ibufPresent = true)
    (hr : e.ibufLen.toNat < o.toNat + l.toNat) : checkBuffer e o l = some .eRange := by
  simp [checkBuffer, h, hr]

theorem checkBuffer_inside {e : Env} {o l : Word32} (h : e.ibufPresent = true)
    (hr : o.toNat + l.toNat ≤ e.ibufLen.toNat) : checkBuffer e o l = none := by
  simp [checkBuffer, h, Nat.not_lt.2 hr]

theorem checkPhase_active {ph : BitVec 2} (h : ph = phActive) : checkPhase ph = none := by simp [checkPhase, h]

theorem checkPhase_other {ph : BitVec 2} (h : ph ≠ phActive) : checkPhase ph = some .eState := by
  simp [checkPhase, h]

theorem withRange_of_inside {s : State} {o l : Word32} (hp : s.env.ibufPresent = true)
    (hr : o.toNat + l.toNat ≤ s.env.ibufLen.toNat) (run : List Byte → State) :
    withRange o l s run = .next (run (bytesAt s.env.ibuf o.toNat l.toNat)) := by
  simp [withRange, memRead_of_inside hp hr]

/-- A buffer-form command without a phase check: one of the two errors, or its effect on the bytes of the range. -/
theorem afterChecks_buffer (o l : Word32) (s : State) (run : List Byte → State) :
    afterChecks [checkBuffer s.env o l] s (withRange o l s run) =
      .next (if s.env.ibufPresent = false then raise .eArg s
        else if s.env.ibufLen.toNat < o.toNat + l.toNat then raise .eRange s
        else run (bytesAt s.env.ibuf o.toNat l.toNat)) := by
  by_cases hp : s.env.ibufPresent = false
  · rw [checkBuffer_absent hp, afterChecks_some, if_pos hp]
  · rw [if_neg hp]
    replace hp := Bool.not_eq_false _ ▸ hp
    by_cases hr : s.env.ibufLen.toNat < o.toNat + l.toNat
    · rw [checkBuffer_outside hp hr, afterChecks_some, if_pos hr]
    · rw [checkBuffer_inside hp (by omega), afterChecks_none, afterChecks_nil, withRange_of_inside hp (by omega), if_neg hr]

/-- A buffer-form command with a phase check. -/
theorem afterChecks_buffer_phase (o l : Word32) (ph : BitVec 2) (s : State) (run : List Byte → State) :
    afterChecks [checkBuffer s.env o l, checkPhase ph] s (withRange o l s run) =
      .next (if s.env.ibufPresent = false then raise .eArg s
        else if s.env.ibufLen.toNat < o.toNat + l.toNat then raise .eRange s
        else if ph = phActive then run (bytesAt s.env.ibuf o.toNat l.toNat) else raise .eState s) := by
  by_cases hp : s.env.ibufPresent = false
  · rw [checkBuffer_absent hp, afterChecks_some, if_pos hp]
  · rw [if_neg hp]
    replace hp := Bool.not_eq_false _ ▸ hp
    by_cases hr : s.env.ibufLen.toNat < o.toNat + l.toNat
    · rw [checkBuffer_outside hp hr, afterChecks_some, if_pos hr]
    · rw [checkBuffer_inside hp (by omega), afterChecks_none, if_neg hr]
      by_cases hph : ph = phActive
      · rw [checkPhase_active hph, afterChecks_none, afterChecks_nil, withRange_of_inside hp (by omega), if_pos hph]
      · rw [checkPhase_other hph, afterChecks_some, if_neg hph]

/-- A command whose only check is the phase. -/
theorem afterChecks_phase (ph : BitVec 2) (s t : State) :
    afterChecks [checkPhase ph] s (.next t) = .next (if ph = phActive then t else raise .eState s) := by
  by_cases hph : ph = phActive
  · rw [checkPhase_active hph, afterChecks_none, afterChecks_nil, if_pos hph]
  · rw [checkPhase_other hph, afterChecks_some, if_neg hph]

/-- A stream-form command without a phase check. -/
theorem afterChecks_source (s t : State) :
    afterChecks [checkSource s.env] s (.next t) =
      .next (if s.env.srcPresent = false then raise .eArg s else t) := by
  by_cases h : s.env.srcPresent = false <;> simp [checkSource, h]

/-- A stream-form command with a phase check. -/
theorem afterChecks_source_phase (ph : BitVec 2) (s t : State) :
    afterChecks [checkSource s.env, checkPhase ph] s (.next t) =
      .next (if s.env.srcPresent = false then raise .eArg s
        else if ph = phActive then t else raise .eState s) := by
  by_cases h : s.env.srcPresent = false
  · simp [checkSource, h]
  · by_cases hph : ph = phActive <;> simp [checkSource, checkPhase, h, hph]

theorem pullLoop_eof {ε : Type} (f : ε → Byte → ε) (e : ε) (bs : List Byte) (rest : List Pull) :
    pullLoop f e (bs.map Pull.byte ++ .eof :: rest) = (bs.foldl f e, .eof, rest) := by
  induction bs generalizing e with
  | nil => rfl
  | cons b bs ih => exact ih (f e b)

theorem pullLoop_ioerr {ε : Type} (f : ε → Byte → ε) (e : ε) (bs : List Byte) (rest : List Pull) :
    pullLoop f e (bs.map Pull.byte ++ .ioerr :: rest) = (bs.foldl f e, .ioerr, rest) := by
  induction bs generalizing e with
  | nil => rfl
  | cons b bs ih => exact ih (f e b)

theorem pullLoop_never {ε : Type} (f : ε → Byte → ε) (e : ε) (bs : List Byte) :
    pullLoop f e (bs.map Pull.byte) = (bs.foldl f e, .never, []) := by
  induction bs generalizing e with
  | nil => rfl
  | cons b bs ih => exact ih (f e b)

/-- Every source is a list of bytes that ends in EOF, in IOERR, or in no answer. -/
theorem source_cases (src : List Pull) :
    (∃ (bs : List Byte) (rest : List Pull), src = bs.map Pull.byte ++ .eof :: rest) ∨
    (∃ (bs : List Byte) (rest : List Pull), src = bs.map Pull.byte ++ .ioerr :: rest) ∨
    (∃ bs : List Byte, src = bs.map Pull.byte) := by
  induction src with
  | nil => exact .inr (.inr ⟨[], rfl⟩)
  | cons p src ih =>
    cases p with
    | eof => exact .inl ⟨[], src, rfl⟩
    | ioerr => exact .inr (.inl ⟨[], src, rfl⟩)
    | byte b =>
      obtain ⟨bs, rest, h⟩ | ⟨bs, rest, h⟩ | ⟨bs, h⟩ := ih
      · exact .inl ⟨b :: bs, rest, by simp [h]⟩
      · exact .inr (.inl ⟨b :: bs, rest, by simp [h]⟩)
      · exact .inr (.inr ⟨b :: bs, by simp [h]⟩)

end Sys2Proof.Machine
end

