-- ==== Sys2Proof/Laws/Exec.lean ====
section
/-! SUPPORT. One equation per command: the next state it answers, by the order of its checks. -/

namespace Sys2Proof.Machine

theorem exec_init32 (s : State) : exec .init32 s = .next (respondOk [] { s with e32 := initBody32 s.e32 }) := rfl

theorem exec_init64 (s : State) : exec .init64 s = .next (respondOk [] { s with e64 := initBody64 s.e64 }) := rfl

theorem exec_init128 (s : State) : exec .init128 s = .next (respondOk [] { s with e128 := initBody128 s.e128 }) :=
  rfl

theorem exec_update32 (o l : Word32) (s : State) :
    exec (.update32 o l) s = .next (if s.env.ibufPresent = false then raise .eArg s
      else if s.env.ibufLen.toNat < o.toNat + l.toNat then raise .eRange s
      else if s.e32.ph = phActive then
        respondOk [] { s with e32 := absorb32 s.e32 (bytesAt s.env.ibuf o.toNat l.toNat) }
      else raise .eState s) := afterChecks_buffer_phase o l _ s _

theorem exec_update64 (o l : Word32) (s : State) :
    exec (.update64 o l) s = .next (if s.env.ibufPresent = false then raise .eArg s
      else if s.env.ibufLen.toNat < o.toNat + l.toNat then raise .eRange s
      else if s.e64.ph = phActive then
        respondOk [] { s with e64 := absorbAll64 s.e64 (bytesAt s.env.ibuf o.toNat l.toNat) }
      else raise .eState s) := afterChecks_buffer_phase o l _ s _

theorem exec_update128 (o l : Word32) (s : State) :
    exec (.update128 o l) s = .next (if s.env.ibufPresent = false then raise .eArg s
      else if s.env.ibufLen.toNat < o.toNat + l.toNat then raise .eRange s
      else if s.e128.ph = phActive then
        respondOk [] { s with e128 := absorbAll128 s.e128 (bytesAt s.env.ibuf o.toNat l.toNat) }
      else raise .eState s) := afterChecks_buffer_phase o l _ s _

theorem exec_updates64 (s : State) :
    exec .updates64 s = .next (if s.env.srcPresent = false then raise .eArg s
      else if s.e64.ph = phActive then stream64 s.e64 (fun e t => respondOk [] { t with e64 := e }) s
      else raise .eState s) := afterChecks_source_phase _ s _

theorem exec_updates128 (s : State) :
    exec .updates128 s = .next (if s.env.srcPresent = false then raise .eArg s
      else if s.e128.ph = phActive then stream128 s.e128 (fun e t => respondOk [] { t with e128 := e }) s
      else raise .eState s) := afterChecks_source_phase _ s _

theorem exec_final32 (s : State) :
    exec .final32 s = .next (if s.e32.ph = phActive then
        respondOk (digest32 (finalBody32 s.e32)) { s with e32 := finalBody32 s.e32 }
      else raise .eState s) := afterChecks_phase _ s _

theorem exec_final64 (s : State) :
    exec .final64 s = .next (if s.e64.ph = phActive then
        respondOk (digest64 (finalBody64 s.e64)) { s with e64 := finalBody64 s.e64 }
      else raise .eState s) := afterChecks_phase _ s _

theorem exec_final128 (s : State) :
    exec .final128 s = .next (if s.e128.ph = phActive then
        respondOk (digest128 (finalBody128 s.e128)) { s with e128 := finalBody128 s.e128 }
      else raise .eState s) := afterChecks_phase _ s _

/-- E32 after a one-shot over these bytes (41_hash32.md rule R124). -/
def oneShot32 (e : E32) (bs : List Byte) : E32 := finalBody32 (absorb32 (initBody32 e) bs)

/-- E64 after a one-shot over these bytes (42_hash64.md rule R145). -/
def oneShot64 (e : E64) (bs : List Byte) : E64 := finalBody64 (absorbAll64 (initBody64 e) bs)

/-- E128 after a one-shot over these bytes (43_hash128.md rule R165). -/
def oneShot128 (e : E128) (bs : List Byte) : E128 := finalBody128 (absorbAll128 (initBody128 e) bs)

@[simp] theorem oneShot32_ph (e : E32) (bs : List Byte) : (oneShot32 e bs).ph = phDone := by simp [oneShot32]
@[simp] theorem oneShot32_len (e : E32) (bs : List Byte) :
    (oneShot32 e bs).len = BitVec.ofNat 64 bs.length := by simp [oneShot32]
@[simp] theorem oneShot64_ph (e : E64) (bs : List Byte) : (oneShot64 e bs).ph = phDone := by simp [oneShot64]
@[simp] theorem oneShot64_len (e : E64) (bs : List Byte) :
    (oneShot64 e bs).len = BitVec.ofNat 64 bs.length := by simp [oneShot64]
@[simp] theorem oneShot64_cnt (e : E64) (bs : List Byte) :
    (oneShot64 e bs).cnt = BitVec.ofNat 3 bs.length := by simp [oneShot64]
@[simp] theorem oneShot128_ph (e : E128) (bs : List Byte) : (oneShot128 e bs).ph = phDone := by simp [oneShot128]
@[simp] theorem oneShot128_len (e : E128) (bs : List Byte) :
    (oneShot128 e bs).len = BitVec.ofNat 64 bs.length := by simp [oneShot128]
@[simp] theorem oneShot128_cnt (e : E128) (bs : List Byte) :
    (oneShot128 e bs).cnt = BitVec.ofNat 4 bs.length := by simp [oneShot128]

theorem exec_hash32 (o l : Word32) (s : State) :
    exec (.hash32 o l) s = .next (if s.env.ibufPresent = false then raise .eArg s
      else if s.env.ibufLen.toNat < o.toNat + l.toNat then raise .eRange s
      else respondOk (digest32 (oneShot32 s.e32 (bytesAt s.env.ibuf o.toNat l.toNat)))
        { s with e32 := oneShot32 s.e32 (bytesAt s.env.ibuf o.toNat l.toNat) }) := afterChecks_buffer o l s _

theorem exec_hash64 (o l : Word32) (s : State) :
    exec (.hash64 o l) s = .next (if s.env.ibufPresent = false then raise .eArg s
      else if s.env.ibufLen.toNat < o.toNat + l.toNat then raise .eRange s
      else respondOk (digest64 (oneShot64 s.e64 (bytesAt s.env.ibuf o.toNat l.toNat)))
        { s with e64 := oneShot64 s.e64 (bytesAt s.env.ibuf o.toNat l.toNat) }) := afterChecks_buffer o l s _

theorem exec_hash128 (o l : Word32) (s : State) :
    exec (.hash128 o l) s = .next (if s.env.ibufPresent = false then raise .eArg s
      else if s.env.ibufLen.toNat < o.toNat + l.toNat then raise .eRange s
      else respondOk (digest128 (oneShot128 s.e128 (bytesAt s.env.ibuf o.toNat l.toNat)))
        { s with e128 := oneShot128 s.e128 (bytesAt s.env.ibuf o.toNat l.toNat) }) := afterChecks_buffer o l s _

theorem exec_hashs64 (s : State) :
    exec .hashs64 s = .next (if s.env.srcPresent = false then raise .eArg s
      else stream64 (initBody64 s.e64)
        (fun e t => respondOk (digest64 (finalBody64 e)) { t with e64 := finalBody64 e }) s) := afterChecks_source s _

theorem exec_hashs128 (s : State) :
    exec .hashs128 s = .next (if s.env.srcPresent = false then raise .eArg s
      else stream128 (initBody128 s.e128)
        (fun e t => respondOk (digest128 (finalBody128 e)) { t with e128 := finalBody128 e }) s) := afterChecks_source s _

/-- The three ways the stream loop of E64 ends. -/
theorem stream64_eof {s : State} {bs : List Byte} {rest : List Pull}
    (h : s.env.src = bs.map Pull.byte ++ .eof :: rest) (e : E64) (fin : E64 → State → State) :
    stream64 e fin s = fin (absorbAll64 e bs) (pulledTo rest s) := by simp [stream64, h, pullLoop_eof, absorbAll64]

theorem stream64_ioerr {s : State} {bs : List Byte} {rest : List Pull}
    (h : s.env.src = bs.map Pull.byte ++ .ioerr :: rest) (e : E64) (fin : E64 → State → State) :
    stream64 e fin s = raise .eIo (discard64 phIdle (pulledTo rest s)) := by simp [stream64, h, pullLoop_ioerr]

theorem stream64_never {s : State} {bs : List Byte} (h : s.env.src = bs.map Pull.byte) (e : E64)
    (fin : E64 → State → State) : stream64 e fin s = hang (discard64 phActive (pulledTo [] s)) := by
  simp [stream64, h, pullLoop_never]

/-- The three ways the stream loop of E128 ends. -/
theorem stream128_eof {s : State} {bs : List Byte} {rest : List Pull}
    (h : s.env.src = bs.map Pull.byte ++ .eof :: rest) (e : E128) (fin : E128 → State → State) :
    stream128 e fin s = fin (absorbAll128 e bs) (pulledTo rest s) := by
  simp [stream128, h, pullLoop_eof, absorbAll128]

theorem stream128_ioerr {s : State} {bs : List Byte} {rest : List Pull}
    (h : s.env.src = bs.map Pull.byte ++ .ioerr :: rest) (e : E128) (fin : E128 → State → State) :
    stream128 e fin s = raise .eIo (discard128 phIdle (pulledTo rest s)) := by simp [stream128, h, pullLoop_ioerr]

theorem stream128_never {s : State} {bs : List Byte} (h : s.env.src = bs.map Pull.byte) (e : E128)
    (fin : E128 → State → State) : stream128 e fin s = hang (discard128 phActive (pulledTo [] s)) := by
  simp [stream128, h, pullLoop_never]

/-- Everything the stream loop of E64 can answer: its end at EOF, E_IO on a discarded engine, or a hang. -/
theorem stream64_cases (e : E64) (fin : E64 → State → State) (s : State) :
    (∃ bs rest, stream64 e fin s = fin (absorbAll64 e bs) (pulledTo rest s)) ∨
    (∃ rest, stream64 e fin s = raise .eIo (discard64 phIdle (pulledTo rest s))) ∨
    stream64 e fin s = hang (discard64 phActive (pulledTo [] s)) := by
  obtain ⟨bs, rest, h⟩ | ⟨bs, rest, h⟩ | ⟨bs, h⟩ := source_cases s.env.src
  · exact .inl ⟨bs, rest, stream64_eof h e fin⟩
  · exact .inr (.inl ⟨rest, stream64_ioerr h e fin⟩)
  · exact .inr (.inr (stream64_never h e fin))

/-- Everything the stream loop of E128 can answer. -/
theorem stream128_cases (e : E128) (fin : E128 → State → State) (s : State) :
    (∃ bs rest, stream128 e fin s = fin (absorbAll128 e bs) (pulledTo rest s)) ∨
    (∃ rest, stream128 e fin s = raise .eIo (discard128 phIdle (pulledTo rest s))) ∨
    stream128 e fin s = hang (discard128 phActive (pulledTo [] s)) := by
  obtain ⟨bs, rest, h⟩ | ⟨bs, rest, h⟩ | ⟨bs, h⟩ := source_cases s.env.src
  · exact .inl ⟨bs, rest, stream128_eof h e fin⟩
  · exact .inr (.inl ⟨rest, stream128_ioerr h e fin⟩)
  · exact .inr (.inr (stream128_never h e fin))

end Sys2Proof.Machine
end

