-- ==== Sys2Proof/Laws/Admitted.lean ====
section
/-! SUPPORT. What the two ends of a command write, and what each command answers once its checks pass (60_exceptions.md rule R187). -/

namespace Sys2Proof.Machine

theorem respondOk_eq (d : List Byte) (s : State) :
    respondOk d s = { s with rsp := 0, resp := some { code := .ok, digest := d } } := by
  simp [respondOk, complete, respBits, errSeenAfter, errBit]

theorem raise_eq (c : RespCode) (s : State) :
    raise c s = { s with rsp := respBits c, errseen := s.errseen ||| errBit c,
                         resp := some { code := c, digest := [] } } := rfl

section Buffer

variable {s : State} {o l : Word32}

theorem update32_admitted (hp : s.env.ibufPresent = true) (hr : o.toNat + l.toNat ≤ s.env.ibufLen.toNat)
    (h : s.e32.ph = phActive) : exec (.update32 o l) s =
      .next (respondOk [] { s with e32 := absorb32 s.e32 (bytesAt s.env.ibuf o.toNat l.toNat) }) := by
  rw [exec_update32, if_neg (by simp [hp]), if_neg (by omega), if_pos h]

theorem update64_admitted (hp : s.env.ibufPresent = true) (hr : o.toNat + l.toNat ≤ s.env.ibufLen.toNat)
    (h : s.e64.ph = phActive) : exec (.update64 o l) s =
      .next (respondOk [] { s with e64 := absorbAll64 s.e64 (bytesAt s.env.ibuf o.toNat l.toNat) }) := by
  rw [exec_update64, if_neg (by simp [hp]), if_neg (by omega), if_pos h]

theorem update128_admitted (hp : s.env.ibufPresent = true) (hr : o.toNat + l.toNat ≤ s.env.ibufLen.toNat)
    (h : s.e128.ph = phActive) : exec (.update128 o l) s =
      .next (respondOk [] { s with e128 := absorbAll128 s.e128 (bytesAt s.env.ibuf o.toNat l.toNat) }) := by
  rw [exec_update128, if_neg (by simp [hp]), if_neg (by omega), if_pos h]

theorem hash32_admitted (hp : s.env.ibufPresent = true) (hr : o.toNat + l.toNat ≤ s.env.ibufLen.toNat) :
    exec (.hash32 o l) s =
      .next (respondOk (digest32 (oneShot32 s.e32 (bytesAt s.env.ibuf o.toNat l.toNat)))
        { s with e32 := oneShot32 s.e32 (bytesAt s.env.ibuf o.toNat l.toNat) }) := by
  rw [exec_hash32, if_neg (by simp [hp]), if_neg (by omega)]

theorem hash64_admitted (hp : s.env.ibufPresent = true) (hr : o.toNat + l.toNat ≤ s.env.ibufLen.toNat) :
    exec (.hash64 o l) s =
      .next (respondOk (digest64 (oneShot64 s.e64 (bytesAt s.env.ibuf o.toNat l.toNat)))
        { s with e64 := oneShot64 s.e64 (bytesAt s.env.ibuf o.toNat l.toNat) }) := by
  rw [exec_hash64, if_neg (by simp [hp]), if_neg (by omega)]

theorem hash128_admitted (hp : s.env.ibufPresent = true) (hr : o.toNat + l.toNat ≤ s.env.ibufLen.toNat) :
    exec (.hash128 o l) s =
      .next (respondOk (digest128 (oneShot128 s.e128 (bytesAt s.env.ibuf o.toNat l.toNat)))
        { s with e128 := oneShot128 s.e128 (bytesAt s.env.ibuf o.toNat l.toNat) }) := by
  rw [exec_hash128, if_neg (by simp [hp]), if_neg (by omega)]

end Buffer

section Final

variable {s : State}

theorem final32_admitted (h : s.e32.ph = phActive) : exec .final32 s =
    .next (respondOk (digest32 (finalBody32 s.e32)) { s with e32 := finalBody32 s.e32 }) := by
  rw [exec_final32, if_pos h]

theorem final64_admitted (h : s.e64.ph = phActive) : exec .final64 s =
    .next (respondOk (digest64 (finalBody64 s.e64)) { s with e64 := finalBody64 s.e64 }) := by
  rw [exec_final64, if_pos h]

theorem final128_admitted (h : s.e128.ph = phActive) : exec .final128 s =
    .next (respondOk (digest128 (finalBody128 s.e128)) { s with e128 := finalBody128 s.e128 }) := by
  rw [exec_final128, if_pos h]

end Final

section Source

variable {s : State} {bs : List Byte} {rest : List Pull}

theorem updates64_admitted (hp : s.env.srcPresent = true) (hs : s.env.src = bs.map Pull.byte ++ .eof :: rest)
    (h : s.e64.ph = phActive) : exec .updates64 s =
      .next (respondOk [] { pulledTo rest s with e64 := absorbAll64 s.e64 bs }) := by
  rw [exec_updates64, if_neg (by simp [hp]), if_pos h, stream64_eof hs]

theorem updates128_admitted (hp : s.env.srcPresent = true) (hs : s.env.src = bs.map Pull.byte ++ .eof :: rest)
    (h : s.e128.ph = phActive) : exec .updates128 s =
      .next (respondOk [] { pulledTo rest s with e128 := absorbAll128 s.e128 bs }) := by
  rw [exec_updates128, if_neg (by simp [hp]), if_pos h, stream128_eof hs]

theorem hashs64_admitted (hp : s.env.srcPresent = true) (hs : s.env.src = bs.map Pull.byte ++ .eof :: rest) :
    exec .hashs64 s = .next (respondOk (digest64 (oneShot64 s.e64 bs))
      { pulledTo rest s with e64 := oneShot64 s.e64 bs }) := by
  rw [exec_hashs64, if_neg (by simp [hp]), stream64_eof hs]
  rfl

theorem hashs128_admitted (hp : s.env.srcPresent = true) (hs : s.env.src = bs.map Pull.byte ++ .eof :: rest) :
    exec .hashs128 s = .next (respondOk (digest128 (oneShot128 s.e128 bs))
      { pulledTo rest s with e128 := oneShot128 s.e128 bs }) := by
  rw [exec_hashs128, if_neg (by simp [hp]), stream128_eof hs]
  rfl

end Source

end Sys2Proof.Machine
end

