-- ==== Sys2Proof/Laws/Decode.lean ====
section
/-! SUPPORT. The words of a packed packet. -/

namespace Sys2Proof

@[simp] theorem packetW0_packPacket (w o l : Word32) : packetW0 (packPacket w o l) = w := by
  refine BitVec.eq_of_getLsbD_eq fun i hi => ?_
  simp only [packetW0, packPacket, BitVec.getLsbD_extractLsb', BitVec.getLsbD_append, hi, decide_true,
    Bool.true_and, Nat.zero_add, if_pos]

@[simp] theorem packetOffset_packPacket (w o l : Word32) : packetOffset (packPacket w o l) = o := by
  refine BitVec.eq_of_getLsbD_eq fun i hi => ?_
  simp only [packetOffset, packPacket, BitVec.getLsbD_extractLsb', BitVec.getLsbD_append, hi, decide_true,
    Bool.true_and, show ¬ 32 + i < 32 by omega, Nat.add_sub_cancel_left, if_pos, if_false]

@[simp] theorem packetLength_packPacket (w o l : Word32) : packetLength (packPacket w o l) = l := by
  refine BitVec.eq_of_getLsbD_eq fun i hi => ?_
  simp only [packetLength, packPacket, BitVec.getLsbD_extractLsb', BitVec.getLsbD_append, hi, decide_true,
    Bool.true_and, show ¬ 64 + i < 32 by omega, show ¬ 64 + i - 32 < 32 by omega,
    show 64 + i - 32 - 32 = i by omega, if_false]

@[simp] theorem rowOrIllegal_some (i : Instr) : rowOrIllegal (some i) = .ok i := rfl

@[simp] theorem rowOrIllegal_none : rowOrIllegal none = .error .noStreamForm := rfl

/-- What the decoder answers depends on the packet's three words only. -/
theorem decode_packPacket (w o l : Word32) :
    decode (packPacket w o l) =
      if fieldZero w ≠ 0 then .error .zeroField
      else if fieldVar w = 3 then .error .reservedVar
      else if fieldOp w = 6 ∨ fieldOp w = 7 then .error .reservedOp
      else rowOrIllegal (commandOf (fieldOp w).toNat (fieldVar w).toNat o l) := by
  simp [decode]

end Sys2Proof
end

