-- ==== Sys2Proof/Laws/ExecCases.lean ====
section
/-! SUPPORT. Everything exec can do, said once: a refusal by a check, a completed operation on one engine, E_IO, or a hang. Proofs over all commands split on this and on nothing else. -/

namespace Sys2Proof.Machine

/-- How a completed operation takes E32 from `e` to `e'` and what digest it responds. -/
def Done32 (op : Op) (e e' : E32) (digest : List Byte) : Prop :=
  match op with
  | .init => e' = initBody32 e ∧ digest = []
  | .update => e.ph = phActive ∧ (∃ bs, e' = absorb32 e bs) ∧ digest = []
  | .updates => False
  | .final => e.ph = phActive ∧ e' = finalBody32 e ∧ digest = digest32 e'
  | .hash => (∃ bs, e' = oneShot32 e bs) ∧ digest = digest32 e'
  | .hashs => False

/-- How a completed operation takes E64 from `e` to `e'` and what digest it responds. -/
def Done64 (op : Op) (e e' : E64) (digest : List Byte) : Prop :=
  match op with
  | .init => e' = initBody64 e ∧ digest = []
  | .update => e.ph = phActive ∧ (∃ bs, e' = absorbAll64 e bs) ∧ digest = []
  | .updates => e.ph = phActive ∧ (∃ bs, e' = absorbAll64 e bs) ∧ digest = []
  | .final => e.ph = phActive ∧ e' = finalBody64 e ∧ digest = digest64 e'
  | .hash => (∃ bs, e' = oneShot64 e bs) ∧ digest = digest64 e'
  | .hashs => (∃ bs, e' = oneShot64 e bs) ∧ digest = digest64 e'

/-- How a completed operation takes E128 from `e` to `e'` and what digest it responds. -/
def Done128 (op : Op) (e e' : E128) (digest : List Byte) : Prop :=
  match op with
  | .init => e' = initBody128 e ∧ digest = []
  | .update => e.ph = phActive ∧ (∃ bs, e' = absorbAll128 e bs) ∧ digest = []
  | .updates => e.ph = phActive ∧ (∃ bs, e' = absorbAll128 e bs) ∧ digest = []
  | .final => e.ph = phActive ∧ e' = finalBody128 e ∧ digest = digest128 e'
  | .hash => (∃ bs, e' = oneShot128 e bs) ∧ digest = digest128 e'
  | .hashs => (∃ bs, e' = oneShot128 e bs) ∧ digest = digest128 e'

/-- The phase a completed operation leaves, and the phase it needs (10_state.md rule R37). -/
theorem done32_ph {op : Op} {e e' : E32} {d : List Byte} (h : Done32 op e e' d) :
    e'.ph = phaseAfter op .ok e.ph ∧ (needsActive op = true → e.ph = phActive) := by
  cases op <;> simp only [Done32] at h <;> simp only [phaseAfter, needsActive] <;> aesop

/-- A completed operation that returns a digest leaves phase DONE and responds the accumulators' bytes. -/
theorem done32_digest {op : Op} {e e' : E32} {d : List Byte} (h : Done32 op e e' d)
    (hr : returnsDigest op = true) : e'.ph = phDone ∧ d = digest32 e' := by
  cases op <;> simp only [Done32, returnsDigest, Bool.false_eq_true] at h hr <;> aesop

/-- The phase a completed operation leaves, and the phase it needs (10_state.md rule R37). -/
theorem done64_ph {op : Op} {e e' : E64} {d : List Byte} (h : Done64 op e e' d) :
    e'.ph = phaseAfter op .ok e.ph ∧ (needsActive op = true → e.ph = phActive) := by
  cases op <;> simp only [Done64] at h <;> simp only [phaseAfter, needsActive] <;> aesop

/-- A completed operation that returns a digest leaves phase DONE and responds the accumulators' bytes. -/
theorem done64_digest {op : Op} {e e' : E64} {d : List Byte} (h : Done64 op e e' d)
    (hr : returnsDigest op = true) : e'.ph = phDone ∧ d = digest64 e' := by
  cases op <;> simp only [Done64, returnsDigest, Bool.false_eq_true] at h hr <;> aesop

/-- The phase a completed operation leaves, and the phase it needs (10_state.md rule R37). -/
theorem done128_ph {op : Op} {e e' : E128} {d : List Byte} (h : Done128 op e e' d) :
    e'.ph = phaseAfter op .ok e.ph ∧ (needsActive op = true → e.ph = phActive) := by
  cases op <;> simp only [Done128] at h <;> simp only [phaseAfter, needsActive] <;> aesop

/-- A completed operation that returns a digest leaves phase DONE and responds the accumulators' bytes. -/
theorem done128_digest {op : Op} {e e' : E128} {d : List Byte} (h : Done128 op e e' d)
    (hr : returnsDigest op = true) : e'.ph = phDone ∧ d = digest128 e' := by
  cases op <;> simp only [Done128, returnsDigest, Bool.false_eq_true] at h hr <;> aesop

/-- The operations that pull the byte source. -/
def pullsSource (op : Op) : Prop := op = .updates ∨ op = .hashs

/-- The next states of a command. -/
inductive ExecResult (i : Instr) (s : State) : State → Prop
  /-- A check failed (60_exceptions.md rule R187 items 2 to 4). -/
  | refused (c : RespCode) (hc : c = .eArg ∨ c = .eRange ∨ c = .eState) (hop : opOf i ≠ .init) :
      ExecResult i s (raise c s)
  /-- An operation on E32 completed. -/
  | done32 (e : E32) (d : List Byte) (hv : engineOf i = .e32) (he : Done32 (opOf i) s.e32 e d) :
      ExecResult i s (respondOk d { s with e32 := e })
  /-- An operation on E64 completed; the source is left at `rest`. -/
  | done64 (e : E64) (d : List Byte) (rest : List Pull) (hv : engineOf i = .e64)
      (he : Done64 (opOf i) s.e64 e d) (hr : ¬ pullsSource (opOf i) → rest = s.env.src) :
      ExecResult i s (respondOk d { pulledTo rest s with e64 := e })
  /-- An operation on E128 completed; the source is left at `rest`. -/
  | done128 (e : E128) (d : List Byte) (rest : List Pull) (hv : engineOf i = .e128)
      (he : Done128 (opOf i) s.e128 e d) (hr : ¬ pullsSource (opOf i) → rest = s.env.src) :
      ExecResult i s (respondOk d { pulledTo rest s with e128 := e })
  /-- The source failed during a stream command on E64. -/
  | ioError64 (rest : List Pull) (hv : engineOf i = .e64) (hop : pullsSource (opOf i))
      (hph : opOf i = .updates → s.e64.ph = phActive) :
      ExecResult i s (raise .eIo (discard64 phIdle (pulledTo rest s)))
  /-- The source failed during a stream command on E128. -/
  | ioError128 (rest : List Pull) (hv : engineOf i = .e128) (hop : pullsSource (opOf i))
      (hph : opOf i = .updates → s.e128.ph = phActive) :
      ExecResult i s (raise .eIo (discard128 phIdle (pulledTo rest s)))
  /-- The source of a stream command on E64 never answers. -/
  | hung64 (hv : engineOf i = .e64) (hop : pullsSource (opOf i)) :
      ExecResult i s (hang (discard64 phActive (pulledTo [] s)))
  /-- The source of a stream command on E128 never answers. -/
  | hung128 (hv : engineOf i = .e128) (hop : pullsSource (opOf i)) :
      ExecResult i s (hang (discard128 phActive (pulledTo [] s)))

/-- The three ways the stream loop of E64 ends, as results of a stream command. -/
theorem ExecResult.of_stream64 {i : Instr} {s : State} (hv : engineOf i = .e64) (hop : pullsSource (opOf i))
    (hph : opOf i = .updates → s.e64.ph = phActive) (e : E64) (fin : E64 → State → State)
    (hfin : ∀ bs rest, ExecResult i s (fin (absorbAll64 e bs) (pulledTo rest s))) :
    ExecResult i s (stream64 e fin s) := by
  obtain ⟨bs, rest, h⟩ | ⟨rest, h⟩ | h := stream64_cases e fin s
  · exact h ▸ hfin bs rest
  · exact h ▸ .ioError64 rest hv hop hph
  · exact h ▸ .hung64 hv hop

/-- The three ways the stream loop of E128 ends, as results of a stream command. -/
theorem ExecResult.of_stream128 {i : Instr} {s : State} (hv : engineOf i = .e128) (hop : pullsSource (opOf i))
    (hph : opOf i = .updates → s.e128.ph = phActive) (e : E128) (fin : E128 → State → State)
    (hfin : ∀ bs rest, ExecResult i s (fin (absorbAll128 e bs) (pulledTo rest s))) :
    ExecResult i s (stream128 e fin s) := by
  obtain ⟨bs, rest, h⟩ | ⟨rest, h⟩ | h := stream128_cases e fin s
  · exact h ▸ hfin bs rest
  · exact h ▸ .ioError128 rest hv hop hph
  · exact h ▸ .hung128 hv hop

/-- The result of a buffer command with a phase check. -/
theorem ExecResult.of_buffer_phase {i : Instr} {s t : State} {o l : Word32} {ph : BitVec 2}
    (hop : opOf i ≠ .init) (h : ph = phActive → ExecResult i s t) :
    ExecResult i s (if s.env.ibufPresent = false then raise .eArg s
      else if s.env.ibufLen.toNat < o.toNat + l.toNat then raise .eRange s
      else if ph = phActive then t else raise .eState s) := by
  split_ifs with _ _ hp
  · exact .refused _ (.inl rfl) hop
  · exact .refused _ (.inr (.inl rfl)) hop
  · exact h hp
  · exact .refused _ (.inr (.inr rfl)) hop

/-- The result of a buffer command without a phase check. -/
theorem ExecResult.of_buffer {i : Instr} {s t : State} {o l : Word32} (hop : opOf i ≠ .init)
    (h : ExecResult i s t) :
    ExecResult i s (if s.env.ibufPresent = false then raise .eArg s
      else if s.env.ibufLen.toNat < o.toNat + l.toNat then raise .eRange s else t) := by
  split_ifs
  · exact .refused _ (.inl rfl) hop
  · exact .refused _ (.inr (.inl rfl)) hop
  · exact h

/-- The result of a command whose only check is the phase. -/
theorem ExecResult.of_phase {i : Instr} {s t : State} {ph : BitVec 2} (hop : opOf i ≠ .init)
    (h : ph = phActive → ExecResult i s t) : ExecResult i s (if ph = phActive then t else raise .eState s) := by
  split_ifs with hp
  · exact h hp
  · exact .refused _ (.inr (.inr rfl)) hop

/-- The result of a stream command: its source check first. -/
theorem ExecResult.of_source {i : Instr} {s t : State} (hop : opOf i ≠ .init) (h : ExecResult i s t) :
    ExecResult i s (if s.env.srcPresent = false then raise .eArg s else t) := by
  split_ifs
  · exact .refused _ (.inl rfl) hop
  · exact h

/-- Every command answers one of the results above. -/
theorem exec_next (i : Instr) (s : State) : ∃ t, exec i s = .next t ∧ ExecResult i s t := by
  cases i with
  | init32 => exact ⟨_, exec_init32 s, .done32 _ _ rfl ⟨rfl, rfl⟩⟩
  | init64 => exact ⟨_, exec_init64 s, .done64 _ _ s.env.src rfl ⟨rfl, rfl⟩ fun _ => rfl⟩
  | init128 => exact ⟨_, exec_init128 s, .done128 _ _ s.env.src rfl ⟨rfl, rfl⟩ fun _ => rfl⟩
  | update32 o l =>
    exact ⟨_, exec_update32 o l s, .of_buffer_phase nofun fun h => .done32 _ _ rfl ⟨h, ⟨_, rfl⟩, rfl⟩⟩
  | update64 o l =>
    exact ⟨_, exec_update64 o l s, .of_buffer_phase nofun fun h =>
      .done64 _ _ s.env.src rfl ⟨h, ⟨_, rfl⟩, rfl⟩ fun _ => rfl⟩
  | update128 o l =>
    exact ⟨_, exec_update128 o l s, .of_buffer_phase nofun fun h =>
      .done128 _ _ s.env.src rfl ⟨h, ⟨_, rfl⟩, rfl⟩ fun _ => rfl⟩
  | updates64 =>
    exact ⟨_, exec_updates64 s, .of_source nofun (.of_phase nofun fun h =>
      .of_stream64 rfl (.inl rfl) (fun _ => h) _ _ fun bs rest =>
        .done64 _ _ rest rfl ⟨h, ⟨bs, rfl⟩, rfl⟩ fun hn => absurd (.inl rfl) hn)⟩
  | updates128 =>
    exact ⟨_, exec_updates128 s, .of_source nofun (.of_phase nofun fun h =>
      .of_stream128 rfl (.inl rfl) (fun _ => h) _ _ fun bs rest =>
        .done128 _ _ rest rfl ⟨h, ⟨bs, rfl⟩, rfl⟩ fun hn => absurd (.inl rfl) hn)⟩
  | final32 => exact ⟨_, exec_final32 s, .of_phase nofun fun h => .done32 _ _ rfl ⟨h, rfl, rfl⟩⟩
  | final64 =>
    exact ⟨_, exec_final64 s, .of_phase nofun fun h =>
      .done64 _ _ s.env.src rfl ⟨h, rfl, rfl⟩ fun _ => rfl⟩
  | final128 =>
    exact ⟨_, exec_final128 s, .of_phase nofun fun h =>
      .done128 _ _ s.env.src rfl ⟨h, rfl, rfl⟩ fun _ => rfl⟩
  | hash32 o l => exact ⟨_, exec_hash32 o l s, .of_buffer nofun (.done32 _ _ rfl ⟨⟨_, rfl⟩, rfl⟩)⟩
  | hash64 o l =>
    exact ⟨_, exec_hash64 o l s, .of_buffer nofun
      (.done64 _ _ s.env.src rfl ⟨⟨_, rfl⟩, rfl⟩ fun _ => rfl)⟩
  | hash128 o l =>
    exact ⟨_, exec_hash128 o l s, .of_buffer nofun
      (.done128 _ _ s.env.src rfl ⟨⟨_, rfl⟩, rfl⟩ fun _ => rfl)⟩
  | hashs64 =>
    exact ⟨_, exec_hashs64 s, .of_source nofun (.of_stream64 rfl (.inr rfl) (fun h => by cases h) _ _
      fun bs rest => .done64 _ _ rest rfl ⟨⟨bs, rfl⟩, rfl⟩ fun hn => absurd (.inr rfl) hn)⟩
  | hashs128 =>
    exact ⟨_, exec_hashs128 s, .of_source nofun (.of_stream128 rfl (.inr rfl) (fun h => by cases h) _ _
      fun bs rest => .done128 _ _ rest rfl ⟨⟨bs, rfl⟩, rfl⟩ fun hn => absurd (.inr rfl) hn)⟩

/-- What a next state of exec can be. -/
theorem exec_cases {i : Instr} {s t : State} (h : exec i s = .next t) : ExecResult i s t := by
  obtain ⟨u, hu, hr⟩ := exec_next i s
  rw [hu] at h
  injection h with h
  exact h ▸ hr

/-- The steps: idle, waiting while a command hangs, reset, a port read, an illegal packet, or a command. -/
theorem step_cases {s t : State} (h : step s = .next t) :
    t = s ∨
    (∃ rest, s.script = .reset :: rest ∧ t = resetBlock { s with script := rest }) ∨
    (s.hung = false ∧ ∃ n rest, s.script = .regRead n :: rest ∧ t = readRegister n { s with script := rest }) ∨
    (s.hung = false ∧ ∃ v rest, s.script = .digestRead v :: rest ∧ t = readDigest v { s with script := rest }) ∨
    (s.hung = false ∧ ∃ p env rest, s.script = .command p env :: rest ∧
      t = raise .eIllegal (acceptCommand env rest s)) ∨
    (s.hung = false ∧ ∃ p env rest i, s.script = .command p env :: rest ∧ decode p = .ok i ∧
      ExecResult i (acceptCommand env rest s) t) := by
  unfold step at h
  split at h
  · injection h with h; exact .inl h.symm
  · rename_i ev rest hs
    cases ev with
    | reset => injection h with h; exact .inr (.inl ⟨rest, hs, h.symm⟩)
    | regRead n =>
      cases hh : s.hung <;> simp only [runEvent, hh] at h <;> injection h with h
      · exact .inr (.inr (.inl ⟨rfl, n, rest, hs, h.symm⟩))
      · exact .inl (by simpa using h.symm)
    | digestRead v =>
      cases hh : s.hung <;> simp only [runEvent, hh] at h <;> injection h with h
      · exact .inr (.inr (.inr (.inl ⟨rfl, v, rest, hs, h.symm⟩)))
      · exact .inl (by simpa using h.symm)
    | command p env =>
      cases hh : s.hung <;> simp only [runEvent, hh] at h
      · refine .inr (.inr (.inr (.inr ?_)))
        simp only [Bool.false_eq_true, if_false, runPacket] at h
        split at h
        · rename_i i hd
          exact .inr ⟨rfl, p, env, rest, i, hs, hd, exec_cases h⟩
        · injection h with h
          exact .inl ⟨rfl, p, env, rest, hs, h.symm⟩
      · simp only [if_true] at h
        injection h with h
        exact .inl h.symm

end Sys2Proof.Machine
end

