-- ==== Sys2Proof/Laws/Mix.lean ====
section
/-! SUPPORT. The value of a little-endian byte sequence (40_mixdown_unit.md rule R97). -/

namespace Sys2Proof.Machine

@[simp] theorem leNat_nil : leNat [] = 0 := rfl

theorem leNat_cons (b : Byte) (bs : List Byte) : leNat (b :: bs) = b.toNat + 2 ^ 8 * leNat bs := rfl

/-- A sequence of n bytes is below 2^(8n). -/
theorem leNat_lt (bs : List Byte) : leNat bs < 2 ^ (8 * bs.length) := by
  induction bs with
  | nil => simp
  | cons b bs ih =>
    have hb := b.isLt
    have step : 2 ^ 8 * leNat bs + 2 ^ 8 ≤ 2 ^ 8 * 2 ^ (8 * bs.length) := by
      rw [← Nat.mul_succ]
      exact Nat.mul_le_mul_left _ ih
    rw [leNat_cons, List.length_cons, Nat.mul_add, Nat.mul_one, Nat.add_comm (8 * bs.length), Nat.pow_add]
    omega

/-- The bytes of a longer sequence stand above those before them. -/
theorem leNat_append (as bs : List Byte) : leNat (as ++ bs) = leNat as + 2 ^ (8 * as.length) * leNat bs := by
  induction as with
  | nil => simp
  | cons a as ih =>
    rw [List.cons_append, leNat_cons, ih, leNat_cons, List.length_cons, Nat.mul_add (8) as.length, Nat.pow_add]
    ring

end Sys2Proof.Machine
end

