-- ==== Sys2Proof/Laws/PerInstr.lean ====
section
/-! SUPPORT. Statements made per command: the encoder writes the table's W0 and the operands as they stand (30_encoding.md rules R70, R71, R75). -/

namespace Sys2Proof.Laws.PacketWords

/-- The three words of a command's packet are its table value of W0 and its operand words, and W0 is legal. -/
def Statement (i : Instr) : Prop :=
  packetW0 (encode i) = opcodeWord i ∧ packetOffset (encode i) = (operandWords i).1 ∧
    packetLength (encode i) = (operandWords i).2 ∧ opcodeWord i ∈ legalWords

theorem of_legal {i : Instr} (h : opcodeWord i ∈ legalWords) : Statement i :=
  ⟨packetW0_packPacket .., packetOffset_packPacket .., packetLength_packPacket .., h⟩

theorem init32 : Statement .init32 := of_legal (by decide)
theorem init64 : Statement .init64 := of_legal (by decide)
theorem init128 : Statement .init128 := of_legal (by decide)
theorem update32 (offset length : Word32) : Statement (.update32 offset length) := of_legal (by simp [opcodeWord, legalWords])
theorem update64 (offset length : Word32) : Statement (.update64 offset length) := of_legal (by simp [opcodeWord, legalWords])
theorem update128 (offset length : Word32) : Statement (.update128 offset length) := of_legal (by simp [opcodeWord, legalWords])
theorem updates64 : Statement .updates64 := of_legal (by decide)
theorem updates128 : Statement .updates128 := of_legal (by decide)
theorem final32 : Statement .final32 := of_legal (by decide)
theorem final64 : Statement .final64 := of_legal (by decide)
theorem final128 : Statement .final128 := of_legal (by decide)
theorem hash32 (offset length : Word32) : Statement (.hash32 offset length) := of_legal (by simp [opcodeWord, legalWords])
theorem hash64 (offset length : Word32) : Statement (.hash64 offset length) := of_legal (by simp [opcodeWord, legalWords])
theorem hash128 (offset length : Word32) : Statement (.hash128 offset length) := of_legal (by simp [opcodeWord, legalWords])
theorem hashs64 : Statement .hashs64 := of_legal (by decide)
theorem hashs128 : Statement .hashs128 := of_legal (by decide)

end Sys2Proof.Laws.PacketWords
end

