-- ==== Sys2Proof/Tests/Slice0.lean ====
section
/-! SUPPORT. Tests: expected values from 95_test_vectors.md and from the encoding tables of 30_encoding.md; and one witness per statement that has hypotheses. -/

namespace Sys2Proof.Tests

open Sys2Proof Sys2Proof.Machine

/-! ### Helpers -/

/-- The outcome is a next state that passes the check. -/
def nextHas (o : Host.Outcome State Fault Refusal) (p : State → Bool) : Bool :=
  match o with
  | .next t => p t
  | .fault _ => false
  | .refused _ => false

/-- The response is the code with the digest. -/
def answered (c : RespCode) (digest : List Byte) (t : State) : Bool :=
  t.resp == some { code := c, digest := digest }

/-- All engines in phase `ph`, accumulators and lengths 0, with the inputs. -/
def small (ph : BitVec 2) (env : Env) : State :=
  { State.reset with
    e32 := { State.reset.e32 with ph := ph }
    e64 := { State.reset.e64 with ph := ph }
    e128 := { State.reset.e128 with ph := ph }
    env := env }

/-- "test", MH3 vector S1. -/
def testBytes : List Byte := [0x74, 0x65, 0x73, 0x74]

/-- "testtesttesttest", MH3 vector S7. -/
def test16 : List Byte := testBytes ++ testBytes ++ testBytes ++ testBytes

/-- "hello", MH3 vector S8. -/
def helloBytes : List Byte := [0x68, 0x65, 0x6C, 0x6C, 0x6F]

/-- A source that delivers 61 62 63 and then fails (95_test_vectors.md section 2.6). -/
def failingEnv : Env :=
  { sourceEnv [] with src := [.byte 0x61, .byte 0x62, .byte 0x63, .ioerr] }

/-- A source that delivers one byte and never answers again. -/
def silentEnv : Env := { sourceEnv [] with src := [.byte 0x61] }

/-- A packet of three words, the first word first. -/
def packetOf (w0 offset length : Nat) : Packet :=
  BitVec.ofNat 96 (w0 + 2 ^ 32 * offset + 2 ^ 64 * length)

/-! ### WellFormed: an ill-formed packet for each check (30_encoding.md rule R77) -/

theorem test_wf_zeroField : Packet.zeroFieldClear (packetOf 0x80000005 0 0) = false ∧
    Packet.wellFormed (packetOf 0x20 0 0) = false := by decide
theorem test_wf_var : Packet.varAssigned (packetOf 0x03 0 0) = false ∧
    Packet.wellFormed (packetOf 0x07 0 0) = false := by decide
theorem test_wf_op : Packet.opAssigned (packetOf 0x18 0 0) = false ∧
    Packet.wellFormed (packetOf 0x1C 0 0) = false := by decide
theorem test_wf_stream : Packet.formExists (packetOf 0x08 0 0) = false ∧
    Packet.formExists (packetOf 0x14 0 0) = false ∧ Packet.wellFormed (packetOf 0x08 0 0) = false := by decide
theorem test_wf_good : Packet.wellFormed (packetOf 0x16 0xDEADBEEF 0xFFFFFFFF) = true ∧
    Instr.wellFormed (.hash64 1 2) = true := by decide

/-! ### Decode: W0 written out as ZERO(27) OP(3) VAR(2) from rules R73 to R75, OFFSET = 2 and LENGTH = 7 -/

theorem test_decode_init32 : decode (0b000000000000000000000000000001110000000000000000000000000000001000000000000000000000000000000000#96) = .ok .init32 := by decide
theorem test_decode_init64 : decode (0b000000000000000000000000000001110000000000000000000000000000001000000000000000000000000000000001#96) = .ok .init64 := by decide
theorem test_decode_init128 : decode (0b000000000000000000000000000001110000000000000000000000000000001000000000000000000000000000000010#96) = .ok .init128 := by decide
theorem test_decode_update32 : decode (0b000000000000000000000000000001110000000000000000000000000000001000000000000000000000000000000100#96) = .ok (.update32 2 7) := by decide
theorem test_decode_update64 : decode (0b000000000000000000000000000001110000000000000000000000000000001000000000000000000000000000000101#96) = .ok (.update64 2 7) := by decide
theorem test_decode_update128 : decode (0b000000000000000000000000000001110000000000000000000000000000001000000000000000000000000000000110#96) = .ok (.update128 2 7) := by decide
theorem test_decode_updates64 : decode (0b000000000000000000000000000001110000000000000000000000000000001000000000000000000000000000001001#96) = .ok .updates64 := by decide
theorem test_decode_updates128 : decode (0b000000000000000000000000000001110000000000000000000000000000001000000000000000000000000000001010#96) = .ok .updates128 := by decide
theorem test_decode_final32 : decode (0b000000000000000000000000000001110000000000000000000000000000001000000000000000000000000000001100#96) = .ok .final32 := by decide
theorem test_decode_final64 : decode (0b000000000000000000000000000001110000000000000000000000000000001000000000000000000000000000001101#96) = .ok .final64 := by decide
theorem test_decode_final128 : decode (0b000000000000000000000000000001110000000000000000000000000000001000000000000000000000000000001110#96) = .ok .final128 := by decide
theorem test_decode_hash32 : decode (0b000000000000000000000000000001110000000000000000000000000000001000000000000000000000000000010000#96) = .ok (.hash32 2 7) := by decide
theorem test_decode_hash64 : decode (0b000000000000000000000000000001110000000000000000000000000000001000000000000000000000000000010001#96) = .ok (.hash64 2 7) := by decide
theorem test_decode_hash128 : decode (0b000000000000000000000000000001110000000000000000000000000000001000000000000000000000000000010010#96) = .ok (.hash128 2 7) := by decide
theorem test_decode_hashs64 : decode (0b000000000000000000000000000001110000000000000000000000000000001000000000000000000000000000010101#96) = .ok .hashs64 := by decide
theorem test_decode_hashs128 : decode (0b000000000000000000000000000001110000000000000000000000000000001000000000000000000000000000010110#96) = .ok .hashs128 := by decide

/-- The illegal values of W0 that 95_test_vectors.md section 2.5 lists. -/
theorem test_decode_illegal : [0x03, 0x07, 0x08, 0x14, 0x18, 0x19, 0x1A, 0x1B, 0x1C, 0x1D, 0x1E, 0x1F, 0x20, 0x80000005,
    0xFFFFFFFF].all (fun w => (decode (packetOf w 0 0)).toOption == none) = true := by decide

/-- INIT.64 with the operand words of 95_test_vectors.md section 2.5. -/
theorem test_decode_ignored : decode (packetOf 0x01 0xDEADBEEF 0xFFFFFFFF) = .ok .init64 := by decide

theorem test_tableWord_short : decodeTableWord 32 0x10 = some (.hash32 0 0) := by decide
theorem test_tableWord_whole : decodeTableWord 96 0x0000002C0000000200000012 = some (.hash128 2 44) := by decide
theorem test_tableWord_illegal : decodeTableWord 32 0x0B = none := by decide

/-- The first instruction after reset is the one placed. -/
theorem test_fetch : step (State.reset.withFetchWord 96 0x02) = exec .init128 State.reset := by rfl

/-! ### The mixing primitives (95_test_vectors.md section 2.1) -/

theorem test_rotl : rotl (0x12345678 : Word32) 15 = 0x2B3C091A ∧ rotl (0x80000001 : Word32) 1 = 3 ∧
    rotl (0x0123456789ABCDEF : Word64) 33 = 0x13579BDE02468ACF ∧
    rotl (0x0123456789ABCDEF : Word64) 27 = 0x3C4D5E6F78091A2B := by decide
theorem test_le : le 64 helloBytes = 0x0000006F6C6C6568 ∧ le 64 [0x80] = 0x80 ∧ le 32 testBytes = 0x74736574 := by decide
theorem test_be : be32 0xBA6BD213 = [0xBA, 0x6B, 0xD2, 0x13] ∧
    be64 0xBA1DC49AA6CFEA13 = [0xBA, 0x1D, 0xC4, 0x9A, 0xA6, 0xCF, 0xEA, 0x13] := by decide
theorem test_scr32 : scr32 1 = 0xC3539A5D ∧ scr32 0x80 = 0x2C537BD1 ∧ scr32 0xFFFFFFFF = 0xBBEEB010 := by decide
theorem test_blk32 : blk32 0 0x74736574 = 0x7985975B ∧ blk32 0xFFFFFFFF 0xFFFFFFFF = 0xB849F5EE := by decide
theorem test_fmix32 : fmix32 1 = 0x514E28B7 ∧ fmix32 0x80000000 = 0x6D3C65A0 := by decide
theorem test_kmix64 : kmix64 1 = 0x1AB11EA5A7B2F00C ∧ kmix64 0xFFFFFFFFFFFFFFFF = 0x6AB7F64BB03AD9A1 := by decide
theorem test_blk64 : blk64 0xBCAEF8B979443DE2 0x7473657474736574 = 0x4B0BDA742357C498 ∧
    blk64 0xFFFFFFFFFFFFFFFF 0xFFFFFFFFFFFFFFFF = 0x2AC7511E9A68E2B6 := by decide
theorem test_fmix64a : fmix64a 1 = 0xC6A4A7935BD064DC ∧ fmix64a 0x8000000000000000 = 0x27935BD1E9954F26 := by decide
theorem test_k1mix : k1mix 1 = 0x34E09D0B6BDEFE38 ∧ k1mix 0x5857565554535251 = 0xE5CC230D0761DDEC := by decide
theorem test_k2mix : k2mix 1 = 0x4E26F5539BB7C37E ∧ k2mix 0x5A59 = 0x8B6603AC2420FAE6 := by decide
theorem test_blk128 : blk128 0 0 0x4847464544434241 0x504F4E4D4C4B4A49 = (0x0E885BF9F8BC9457, 0x82115D9A964A4763) ∧
    blk128 0xFFFFFFFFFFFFFFFF 0xFFFFFFFFFFFFFFFF 0xFFFFFFFFFFFFFFFF 0xFFFFFFFFFFFFFFFF =
      (0x5AFDB6C4E814F338, 0x7765CC27813091DE) := by decide
theorem test_fmix64 : fmix64 5 = 0xD66AD737D54C5575 ∧ fmix64 0x8000000000000000 = 0x8F780810AF31A493 := by decide

/-! ### One command, one step -/

theorem test_init32 : nextHas (exec .init32 { State.reset with e32 := { acc := 9, len := 7, ph := 2 } })
    (fun t => answered .ok [] t && t.e32 == { acc := 0, len := 0, ph := 1 }) = true := by decide
/-- INIT.64 does not clear the carry buffer (42_hash64.md rule R140). -/
theorem test_init64 : nextHas (exec .init64 { State.reset with
      e64 := { acc := 9, len := 7, cb := Vector.replicate 8 5, cnt := 7, ph := 2 } })
    (fun t => t.e64 == { acc := 0, len := 0, cb := Vector.replicate 8 5, cnt := 0, ph := 1 }) = true := by decide
theorem test_init128 : nextHas (exec .init128 { State.reset with
      e128 := { accA := 9, accB := 8, len := 7, cb := Vector.replicate 16 5, cnt := 7, ph := 2 } })
    (fun t => t.e128 == { accA := 0, accB := 0, len := 0, cb := Vector.replicate 16 5, cnt := 0, ph := 1 }) = true := by
  decide

/-- Program P5a row 2: the tail of a call is folded in at once. -/
theorem test_update32_tail : nextHas (exec (.update32 0 5) (small 1 (bufferEnv [0x48, 0x65, 0x6c, 0x6c, 0x6f, 0x2c, 0x20, 0x77, 0x6f, 0x72, 0x6c, 0x64, 0x21])))
    (fun t => answered .ok [] t && t.e32 == { acc := 0xB8E73C48, len := 5, ph := 1 }) = true := by decide
/-- Program P5b row 3. -/
theorem test_update32_offset : nextHas (exec (.update32 8 5)
      { small 1 (bufferEnv [0x48, 0x65, 0x6c, 0x6c, 0x6f, 0x2c, 0x20, 0x77, 0x6f, 0x72, 0x6c, 0x64, 0x21]) with e32 := { acc := 0x22B5BD6F, len := 8, ph := 1 } })
    (fun t => t.e32 == { acc := 0x0D07536A, len := 13, ph := 1 }) = true := by decide
/-- Program P2 row 3: the first three bytes complete block 0, the next eight make block 1. -/
theorem test_update64_blocks : nextHas (exec (.update64 5 11) { small 1 (bufferEnv test16) with
      e64 := { acc := 0, len := 5, cb := #v[0x74, 0x65, 0x73, 0x74, 0x74, 0, 0, 0], cnt := 5, ph := 1 } })
    (fun t => t.e64.acc == 0x4B0BDA742357C498 && t.e64.len == 16 && t.e64.cnt == 0) = true := by decide
/-- Section 2.6: the range sum is exact. -/
theorem test_update64_range : nextHas (exec (.update64 0xFFFFFFFF 0xFFFFFFFF) (small 1 (bufferEnv test16)))
    (fun t => answered .eRange [] t && t.rsp == 1 && t.errseen == 0b000010) = true := by decide
/-- Program P3 row 3: "K".."P" complete the block. -/
theorem test_update128_block : nextHas (exec (.update128 0 16)
      { small 1 (bufferEnv [0x4b, 0x4c, 0x4d, 0x4e, 0x4f, 0x50, 0x51, 0x52, 0x53, 0x54, 0x55, 0x56, 0x57, 0x58, 0x59, 0x5a]) with
        e128 := { accA := 0, accB := 0, len := 10, cb := #v[0x41, 0x42, 0x43, 0x44, 0x45, 0x46, 0x47, 0x48, 0x49, 0x4a, 0, 0, 0, 0, 0, 0],
                  cnt := 10, ph := 1 } })
    (fun t => t.e128.accA == 0x0E885BF9F8BC9457 && t.e128.accB == 0x82115D9A964A4763 && t.e128.len == 26 &&
      t.e128.cnt == 10 && t.e128.cb.toList.take 10 == [0x51, 0x52, 0x53, 0x54, 0x55, 0x56, 0x57, 0x58, 0x59, 0x5a]) = true := by decide
/-- Program P7 row 2. -/
theorem test_update128_carry : nextHas (exec (.update128 0 5) (small 1 (bufferEnv helloBytes)))
    (fun t => t.e128.len == 5 && t.e128.cnt == 5 && t.e128.cb.toList.take 5 == helloBytes) = true := by decide
/-- The bytes of S2 through the source; the answer after EOF stays unpulled. -/
theorem test_updates64_eof : nextHas (exec .updates64
      { small 1 (sourceEnv testBytes) with env := { sourceEnv [] with src := (sourceEnv testBytes).src ++ [.ioerr] } })
    (fun t => answered .ok [] t && t.e64.len == 4 && t.e64.cnt == 4 && t.e64.cb.toList.take 4 == testBytes &&
      t.env.src == [.ioerr]) = true := by decide
/-- Section 2.6: 61 62 63 then IOERR. -/
theorem test_updates64_ioerr : nextHas (exec .updates64 (small 1 failingEnv))
    (fun t => t.rsp == 3 && t.errseen == 0b001000 && t.e64.ph == 0 && t.e128 == (small 1 failingEnv).e128) = true := by
  decide
/-- Program P3 row 2. -/
theorem test_updates128_eof : nextHas (exec .updates128 (small 1 (sourceEnv [0x41, 0x42, 0x43, 0x44, 0x45, 0x46, 0x47, 0x48, 0x49, 0x4a])))
    (fun t => answered .ok [] t && t.e128.accA == 0 && t.e128.len == 10 && t.e128.cnt == 10 &&
      t.e128.cb.toList.take 10 == [0x41, 0x42, 0x43, 0x44, 0x45, 0x46, 0x47, 0x48, 0x49, 0x4a]) = true := by decide
/-- Program P7 row 3. -/
theorem test_updates128_ioerr : nextHas (exec .updates128 (small 1 failingEnv))
    (fun t => answered .eIo [] t && t.rsp == 3 && t.e128.ph == 0) = true := by decide
/-- S1 from the accumulator of its trace. -/
theorem test_final32 : nextHas (exec .final32 { State.reset with e32 := { acc := 0x7985975B, len := 4, ph := 1 } })
    (fun t => answered .ok [0xBA, 0x6B, 0xD2, 0x13] t && t.e32 == { acc := 0xBA6BD213, len := 4, ph := 2 }) = true := by
  decide
theorem test_final32_done : nextHas (exec .final32 (small 2 Env.absent)) (answered .eState []) = true := by decide
/-- S2: the trace of the byte cascade. -/
theorem test_final64_tail : nextHas (exec .final64 { State.reset with
      e64 := { acc := 0, len := 4, cb := #v[0x74, 0x65, 0x73, 0x74, 1, 2, 3, 4], cnt := 4, ph := 1 } })
    (fun t => answered .ok [0xba, 0x1d, 0xc4, 0x9a, 0xa6, 0xcf, 0xea, 0x13] t && t.e64.cnt == 4 && t.e64.ph == 2) = true := by decide
/-- S7: no tail. -/
theorem test_final64_full : nextHas (exec .final64 { State.reset with
      e64 := { acc := 0x4B0BDA742357C498, len := 16, cb := Vector.replicate 8 9, cnt := 0, ph := 1 } })
    (answered .ok [0xd8, 0xb6, 0x6f, 0x83, 0x47, 0xb7, 0x85, 0x57]) = true := by decide
/-- S9 from its trace: a k2 tail and a k1 tail. -/
theorem test_final128_tail : nextHas (exec .final128 { State.reset with
      e128 := { accA := 0x0E885BF9F8BC9457, accB := 0x82115D9A964A4763, len := 26,
                cb := #v[0x51, 0x52, 0x53, 0x54, 0x55, 0x56, 0x57, 0x58, 0x59, 0x5a, 0xFF, 0xFF, 0xFF, 0xFF, 0xFF, 0xFF], cnt := 10, ph := 1 } })
    (answered .ok [0x65, 0xe6, 0x11, 0xfe, 0xd0, 0x9f, 0xce, 0xd7, 0x35, 0x5e, 0x36, 0xe4, 0x5b, 0x7f, 0xd9, 0xe4]) = true := by decide
theorem test_final128_empty : nextHas (exec .final128 (small 1 Env.absent)) (answered .ok (List.replicate 16 0)) = true := by
  decide
/-- S6. -/
theorem test_hash32_hello : nextHas (exec (.hash32 0 13) (small 0 (bufferEnv [0x48, 0x65, 0x6c, 0x6c, 0x6f, 0x2c, 0x20, 0x77, 0x6f, 0x72, 0x6c, 0x64, 0x21])))
    (answered .ok [0xc0, 0x36, 0x3e, 0x43]) = true := by decide
/-- Section 2.2: a byte of 80 and above is zero-extended. -/
theorem test_hash32_high : nextHas (exec (.hash32 0 1) (small 0 (bufferEnv [0x80])))
    (answered .ok [0x0f, 0xeb, 0x9e, 0x1d]) = true := by decide
/-- S7. -/
theorem test_hash64_blocks : nextHas (exec (.hash64 0 16) (small 2 (bufferEnv test16)))
    (answered .ok [0xd8, 0xb6, 0x6f, 0x83, 0x47, 0xb7, 0x85, 0x57]) = true := by decide
/-- Section 2.3, 15 bytes of 80 and above. -/
theorem test_hash64_high : nextHas (exec (.hash64 0 15) (small 0 (bufferEnv [0x80, 0x81, 0x82, 0x83, 0x84, 0x85, 0x86, 0x87, 0x88, 0x89, 0x8a, 0x8b, 0x8c, 0x8d, 0x8e])))
    (answered .ok [0xec, 0xcc, 0x94, 0x57, 0x29, 0x7e, 0x4a, 0xd5]) = true := by decide
/-- Section 2.4, 9 bytes: the k2 staging boundary. -/
theorem test_hash128_nine : nextHas (exec (.hash128 0 9) (small 0 (bufferEnv [0x61, 0x62, 0x63, 0x64, 0x65, 0x66, 0x67, 0x68, 0x69])))
    (answered .ok [0x05, 0x47, 0xc0, 0xcf, 0xf1, 0x3c, 0x79, 0x64, 0x79, 0xb5, 0x3d, 0xf5, 0xb7, 0x41, 0xe0, 0x33]) = true := by decide
/-- Section 2.4, 17 bytes: a block and one tail byte. -/
theorem test_hash128_block : nextHas (exec (.hash128 0 17)
      (small 0 (bufferEnv [0x61, 0x62, 0x63, 0x64, 0x65, 0x66, 0x67, 0x68, 0x69, 0x6a, 0x6b, 0x6c, 0x6d, 0x6e, 0x6f, 0x70, 0x71])))
    (answered .ok [0x75, 0x64, 0x74, 0x7f, 0x88, 0xbd, 0xa6, 0x57, 0xec, 0xda, 0x49, 0x9d, 0xa1, 0x11, 0x0d, 0xe4]) = true := by decide
/-- Program P7 row 7. -/
theorem test_hashs64 : nextHas (exec .hashs64 (small 0 (sourceEnv testBytes)))
    (fun t => answered .ok [0xba, 0x1d, 0xc4, 0x9a, 0xa6, 0xcf, 0xea, 0x13] t && t.e64.len == 4 && t.e64.cnt == 4) = true := by decide
theorem test_hashs64_never : nextHas (exec .hashs64 (small 0 silentEnv))
    (fun t => t.hung && t.resp == none && t.rsp == 0) = true := by decide
/-- S8, program P7 row 5. -/
theorem test_hashs128 : nextHas (exec .hashs128 (small 0 (sourceEnv helloBytes)))
    (fun t => answered .ok [0xcb, 0xd8, 0xa7, 0xb3, 0x41, 0xbd, 0x9b, 0x02, 0x5b, 0x1e, 0x90, 0x6a, 0x48, 0xae, 0x1d, 0x19] t && t.e128.ph == 2) = true := by decide
theorem test_hashs128_absent : nextHas (exec .hashs128 (small 1 (bufferEnv testBytes)))
    (fun t => answered .eArg [] t && t.e128 == (small 1 Env.absent).e128) = true := by decide

/-! ### Events of the outside world -/

/-- ERRSEEN reads with bit 0 as 0, zero-extended (10_state.md rule R39). -/
theorem test_regRead : nextHas (step { small 1 Env.absent with script := [.regRead 0x31], errseen := 0b110111 })
    (fun t => t.regOut == some 0b110110 && t.script == []) = true := by decide
theorem test_digestRead : nextHas (step { small 2 Env.absent with
      script := [.digestRead .e32], e32 := { acc := 0xBA6BD213, len := 4, ph := 2 } })
    (fun t => t.digOut == some [0xBA, 0x6B, 0xD2, 0x13]) = true := by decide
theorem test_reset_event : nextHas (step { small 1 Env.absent with script := [.reset, .reset], rsp := 5, hung := true })
    (fun t => t.e64.ph == 0 && t.rsp == 0 && t.hung == false && t.script == [.reset]) = true := by decide
/-- Section 2.6: ILLEGAL first. -/
theorem test_illegal : nextHas (step { small 1 (bufferEnv testBytes) with script := [.command (packetOf 8 0 0) Env.absent] })
    (fun t => answered .eIllegal [] t && t.rsp == 5 && t.errseen == 0b100000 && t.e64.ph == 1) = true := by decide
theorem test_memory : Memory.ofBytes [1, 0, 3] = [(0, 1), (2, 3)] ∧ (Memory.ofBytes [1, 0, 3]).read 1 = 0 ∧
    (Memory.ofBytes [1, 0, 3]).write 2 0 = [(0, 1)] := by decide

/-! ### Witnesses: for each statement with hypotheses, concrete values that meet all of them together; for each clause, a boundary value -/

/-- All engines ACTIVE, 16 bytes in the buffer. -/
def active16 : State := small 1 (bufferEnv test16)

/-- All engines ACTIVE, a source that delivers "test" and then EOF. -/
def activeTest : State := small 1 (sourceEnv testBytes)

theorem witness_DecodeEncodeAgree : Instr.wellFormed (.hash128 0xFFFFFFFF 0) = true ∧ Instr.wellFormed .init32 = true := by
  decide

theorem witness_IllegalPacketsOnlyReport : packetW0 (packetOf 0x20 0 0) ∉ legalWords ∧ packetW0 (packetOf 0x17 0 0) ∉ legalWords ∧
    packetW0 (packetOf 0x16 0 0) ∈ legalWords ∧
    { active16 with script := [.command (packetOf 0x20 0 0) Env.absent] }.script =
      .command (packetOf 0x20 0 0) Env.absent :: [] ∧
    { active16 with script := [.command (packetOf 0x20 0 0) Env.absent] }.hung = false := by decide

theorem witness_StepRunsDecodedCommand :
    { State.reset with script := [.command (packetOf 0x11 0 4) (bufferEnv testBytes), .reset] }.script =
      .command (packetOf 0x11 0 4) (bufferEnv testBytes) :: [.reset] ∧
    State.reset.hung = false ∧ decode (packetOf 0x11 0 4) = .ok (.hash64 0 4) ∧ State.reset.script = [] := by decide

theorem witness_RotateMovesEveryBit : 0 < 31 ∧ 31 < 32 ∧ 0 < 1 ∧ 0 < 63 ∧ 63 < 64 := by decide

theorem witness_MixingOfZeroIsZero : active16.env.ibufPresent = true ∧
    (16 : Word32).toNat ≤ active16.env.ibufLen.toNat := by decide

theorem witness_CascadeIsLittleEndianXor : (testBytes ++ testBytes).length ≤ 8 ∧ ([] : List Byte).length ≤ 8 := by decide

theorem witness_LittleEndianPlacesBytes : (testBytes ++ testBytes).length ≤ 8 ∧ 7 < 8 ∧ testBytes.length ≤ 4 ∧ 3 < 4 := by
  decide

theorem witness_UpdateAbsorbsItsRange : active16.env.ibufPresent = true ∧
    (5 : Word32).toNat + (11 : Word32).toNat ≤ active16.env.ibufLen.toNat ∧
    (16 : Word32).toNat + (0 : Word32).toNat ≤ active16.env.ibufLen.toNat ∧
    active16.e32.ph = 1 ∧ active16.e64.ph = 1 ∧ active16.e128.ph = 1 := by decide

theorem witness_UpdatesAbsorbsItsSource : activeTest.env.srcPresent = true ∧
    activeTest.env.src = testBytes.map Pull.byte ++ .eof :: [] ∧ (sourceEnv []).src = [].map Pull.byte ++ .eof :: [] ∧
    activeTest.e64.ph = 1 ∧ activeTest.e128.ph = 1 := by decide

theorem witness_Final32GivesItsDigest : active16.e32.ph = 1 ∧ State.reset.e32.ph ≠ 1 := by decide

/-- The tail clause at 0, 1 and 7 buffered bytes. -/
theorem witness_Final64GivesItsDigest : active16.e64.ph = 1 ∧ active16.e64.cnt = 0 ∧ State.reset.e64.ph ≠ 1 ∧
    (absorb64 active16.e64 9).ph = 1 ∧ (absorb64 active16.e64 9).cnt ≠ 0 ∧
    (absorbAll64 active16.e64 (test16.take 7)).ph = 1 ∧ (absorbAll64 active16.e64 (test16.take 7)).cnt = 7 := by decide

/-- The tail clauses at 0, 1, 8, 9 and 15 buffered bytes. -/
theorem witness_Final128GivesItsDigest : State.reset.e128.ph ≠ 1 ∧
    [0, 1, 8, 9, 15].all (fun n => (absorbAll128 active16.e128 (test16.take n)).ph == 1 &&
      (absorbAll128 active16.e128 (test16.take n)).cnt.toNat == n) = true := by decide

theorem witness_HashIsInitUpdateFinal : State.reset.e64.ph = 0 ∧
    { State.reset with env := bufferEnv test16 }.env.ibufPresent = true ∧
    (0 : Word32).toNat + (16 : Word32).toNat ≤ (bufferEnv test16).ibufLen.toNat := by decide

theorem witness_HashsIsInitUpdatesFinal : { State.reset with env := sourceEnv helloBytes }.env.srcPresent = true ∧
    { State.reset with env := sourceEnv helloBytes }.env.src = helloBytes.map Pull.byte ++ .eof :: [] := by decide

theorem witness_Absorb64FoldsWholeBlocks : active16.e64.acc = 0 ∧ active16.e64.len = 0 ∧ active16.e64.cnt = 0 := by decide

theorem witness_Absorb128FoldsWholeBlocks : active16.e128.accA = 0 ∧ active16.e128.accB = 0 ∧ active16.e128.len = 0 ∧
    active16.e128.cnt = 0 := by decide

theorem witness_Split32OnWordBoundaries : ∀ s ∈ [testBytes, [], test16], s.length % 4 = 0 := by decide

theorem witness_FeedsAbsorbTheirConcatenation :
    FeedsFit [⟨true, testBytes⟩, ⟨false, [1]⟩] ∧ FeedsFit [⟨false, testBytes ++ [1]⟩, ⟨true, []⟩] ∧
    fedBytes [⟨true, testBytes⟩, ⟨false, [1]⟩] = fedBytes [⟨false, testBytes ++ [1]⟩, ⟨true, []⟩] ∧
    active16.e64.ph = 1 ∧ active16.e128.ph = 1 := by unfold FeedsFit; decide

theorem witness_ChunkedDigestEqualsOneShot : FeedsFit [⟨true, testBytes⟩, ⟨false, helloBytes⟩] ∧
    (fedBytes [⟨true, testBytes⟩, ⟨false, helloBytes⟩]).length < 2 ^ 32 := by unfold FeedsFit; decide

theorem witness_Hash32DependsOnItsBytesOnly : active16.env.ibufPresent = true ∧
    (0 : Word32).toNat + (4 : Word32).toNat ≤ active16.env.ibufLen.toNat ∧
    (12 : Word32).toNat + (4 : Word32).toNat ≤ active16.env.ibufLen.toNat ∧
    ∀ i < (4 : Word32).toNat, active16.env.ibuf.read ((0 : Word32).toNat + i) =
      active16.env.ibuf.read ((12 : Word32).toNat + i) := by decide

theorem witness_SubRangeEqualsFreshCopy : active16.env.ibufPresent = true ∧
    (5 : Word32).toNat + (11 : Word32).toNat ≤ active16.env.ibufLen.toNat := by decide

theorem witness_ZeroBytesHashToZero64 : active16.e64.acc = 0 ∧ active16.e64.cnt = 0 ∧ 4294967295 < 2 ^ 32 := by decide

/-- A command that responds with OK: no engine has lost its state, so every clause is met. -/
theorem witness_Length64EntersNoDigest :
    exec .init64 State.reset = .next (respondOk [] { State.reset with e64 := initBody64 State.reset.e64 }) ∧
    (respondOk [] { State.reset with e64 := initBody64 State.reset.e64 }).resp ≠ none ∧
    ¬ (engineOf .init64 = .e64 ∧ ∀ r, (respondOk [] { State.reset with e64 := initBody64 State.reset.e64 }).resp =
      some r → r.code = .eIo) ∧ engineOf .init64 ≠ .e128 :=
  ⟨rfl, by decide, (fun h => absurd (h.2 _ rfl) (by decide)), by decide⟩

theorem witness_LengthCountsModuloTwoTo64 : active16.phase .e32 = 1 ∧ active16.phase .e64 = 1 ∧
    active16.phase .e128 = 1 ∧ active16.env.ibufPresent = true ∧
    (5 : Word32).toNat + (11 : Word32).toNat ≤ active16.env.ibufLen.toNat ∧ activeTest.env.srcPresent = true ∧
    activeTest.env.src = testBytes.map Pull.byte ++ .eof :: [] ∧ activeTest.e64.ph = 1 ∧ activeTest.e128.ph = 1 := by decide

theorem witness_EmptyUpdateChangesNoEngine : active16.env.ibufPresent = true ∧ active16.phase .e64 = 1 ∧
    (16 : Word32).toNat ≤ active16.env.ibufLen.toNat ∧ active16.env.ibufLen.toNat < (17 : Word32).toNat := by decide

theorem witness_AbsentInputIsArgError : activeTest.env.ibufPresent = false ∧ active16.env.srcPresent = false := by decide

theorem witness_RangeErrorChangesNothingElse : active16.env.ibufPresent = true ∧
    active16.env.ibufLen.toNat < (17 : Word32).toNat + (0 : Word32).toNat ∧
    active16.env.ibufLen.toNat < (0xFFFFFFFF : Word32).toNat + (0xFFFFFFFF : Word32).toNat := by decide

theorem witness_WrongPhaseIsStateError : (small 2 (bufferEnv test16)).phase .e32 ≠ 1 ∧
    (small 2 (bufferEnv test16)).env.ibufPresent = true ∧
    (0 : Word32).toNat + (4 : Word32).toNat ≤ (small 2 (bufferEnv test16)).env.ibufLen.toNat ∧
    (small 0 (sourceEnv testBytes)).env.srcPresent = true ∧ (small 0 (sourceEnv testBytes)).e64.ph ≠ 1 ∧
    (small 0 (sourceEnv testBytes)).e128.ph ≠ 1 := by decide

theorem witness_IoErrorDiscardsItsEngine : (small 1 failingEnv).env.srcPresent = true ∧
    (small 1 failingEnv).env.src = [0x61, 0x62, 0x63].map Pull.byte ++ .ioerr :: [] ∧ (small 1 failingEnv).e64.ph = 1 ∧
    (small 1 failingEnv).e128.ph = 1 := by decide

theorem witness_EndlessSourceNeverResponds : (small 1 silentEnv).env.srcPresent = true ∧
    (small 1 silentEnv).env.src = [0x61].map Pull.byte ∧ (small 1 silentEnv).e64.ph = 1 ∧ (small 1 silentEnv).e128.ph = 1 ∧
    { active16 with hung := true, script := [.command (packetOf 0 0 0) Env.absent] }.hung = true ∧
    { active16 with hung := true, script := [.command (packetOf 0 0 0) Env.absent] }.script =
      .command (packetOf 0 0 0) Env.absent :: [] ∧
    { active16 with script := [.reset] }.script = .reset :: [] := by decide

theorem witness_ErrorsArePrecise : exec .final64 State.reset = .next (raise .eState State.reset) ∧
    (raise .eState State.reset).resp = some { code := .eState, digest := [] } ∧ RespCode.eState ≠ .ok ∧
    RespCode.eState ≠ .eIo := ⟨rfl, by decide, by decide, by decide⟩

/-- A packet that decodes to nothing, and one next state with a response per kind of clause. -/
theorem witness_OneCodeInCheckOrder : (∀ i, decode (packetOf 0x20 0 0) ≠ .ok i) ∧
    { active16 with script := [.command (packetOf 0x20 0 0) Env.absent] }.hung = false ∧
    nextHas (exec .init32 active16) (answered .ok []) = true ∧
    nextHas (exec .final64 active16) (answered .ok (List.replicate 8 0)) = true ∧
    nextHas (exec (.update64 16 0) active16) (answered .ok []) = true ∧
    nextHas (exec (.hash32 17 0) active16) (answered .eRange []) = true ∧
    nextHas (exec .updates64 active16) (answered .eArg []) = true ∧
    nextHas (exec .hashs128 (small 1 failingEnv)) (answered .eIo []) = true :=
  ⟨(fun i h => by
      rw [show decode (packetOf 0x20 0 0) = .error .zeroField by decide] at h
      cases h),
    by decide, by decide, by decide, by decide, by decide, by decide, by decide⟩

theorem witness_CommandsKeepOtherEngines : exec .final64 State.reset = .next (raise .eState State.reset) ∧
    Engine.e128 ≠ engineOf .final64 := ⟨rfl, by decide⟩

theorem witness_EveryCommandFrame : exec .init64 State.reset = .next (respondOk [] { State.reset with
    e64 := initBody64 State.reset.e64 }) ∧ Engine.e32 ≠ engineOf .init64 ∧
    nextHas (exec .init64 State.reset) (answered .ok []) = true := ⟨rfl, by decide, by decide⟩

theorem witness_PhasesFollowTheTable : nextHas (exec .final64 active16) (answered .ok (List.replicate 8 0)) = true ∧
    needsActive (opOf .final64) = true ∧ Engine.e32 ≠ engineOf .final64 ∧
    { active16 with script := [.reset] }.script = .reset :: [] := by decide

theorem witness_DigestOnlyFromFinishingCommands :
    nextHas (exec .final64 active16) (answered .ok (List.replicate 8 0)) = true ∧
    nextHas (exec .init64 active16) (answered .ok []) = true ∧
    nextHas (exec .final64 State.reset) (answered .eState []) = true := by decide

theorem witness_CommandsWriteNoMemory : exec .final64 State.reset = .next (raise .eState State.reset) ∧
    opOf .final64 ≠ .updates ∧ opOf .final64 ≠ .hashs := ⟨rfl, by decide, by decide⟩

theorem witness_MemReadInsideTheBuffer : memRead (bufferEnv testBytes) 1 3 = some [0x65, 0x73, 0x74] ∧ 2 < 3 ∧
    memRead (bufferEnv testBytes) 4 0 = some [] ∧ memRead (bufferEnv testBytes) 5 0 = none := by decide

theorem witness_ErrorBitsAreSticky :
    nextHas (step { active16 with errseen := 0b000010, script := [.command (packetOf 0x20 0 0) Env.absent] })
      (fun t => t.errseen == 0b100010 && answered .eIllegal [] t) = true ∧
    (∀ rest, [HostEvent.command (packetOf 0x20 0 0) Env.absent] ≠ .reset :: rest) ∧
    (0b000010 : BitVec 6).getLsbD 1 = true ∧ active16.hung = false ∧
    nextHas (step { State.reset with script := [.command (packetOf 0x0D 0 0) Env.absent] })
      (fun t => t.errseen == 0b010000 && answered .eState [] t) = true ∧
    { active16 with script := [.reset] }.script = .reset :: [] :=
  ⟨by decide, nofun, by decide, by decide, by decide, by decide⟩

/-- Carry counts 7 of E64 and 15 of E128, so that the carry clauses are met at both ends of their ranges. -/
theorem witness_RegisterReadsShowRegisters :
    { active16 with script := [.regRead 0x24] }.script = .regRead 0x24 :: [] ∧ active16.hung = false ∧
    active16.e32.ph ≠ 0 ∧ (absorbAll64 active16.e64 (test16.take 7)).ph ≠ 0 ∧
    6 < (absorbAll64 active16.e64 (test16.take 7)).cnt.toNat ∧
    (absorbAll128 active16.e128 (test16.take 15)).ph ≠ 0 ∧
    7 < (absorbAll128 active16.e128 (test16.take 15)).cnt.toNat ∧
    8 + 6 < (absorbAll128 active16.e128 (test16.take 15)).cnt.toNat ∧
    0x32 ∉ [0x00, 0x01, 0x02, 0x10, 0x11, 0x12, 0x13, 0x14, 0x20, 0x21, 0x22, 0x23, 0x24, 0x25, 0x26, 0x30, 0x31] := by
  decide

theorem witness_DigestPortShowsTheDigest : { active16 with script := [.digestRead .e64] }.script = .digestRead .e64 :: [] ∧
    active16.hung = false ∧ active16.phase .e64 ≠ 0 ∧ returnsDigest (opOf .final64) = true ∧
    nextHas (exec .final64 active16) (answered .ok (List.replicate 8 0)) = true := by decide

theorem witness_ResetLeavesIdleAndClear : { active16 with script := [.reset] }.script = .reset :: [] := by decide

/-- A buffer and a source at once. -/
def bothEnv : Env := { bufferEnv test16 with srcPresent := true, src := (sourceEnv testBytes).src }

theorem witness_IncrementalUseNeedsInit : bothEnv.ibufPresent = true ∧
    (5 : Word32).toNat + (11 : Word32).toNat ≤ bothEnv.ibufLen.toNat ∧ bothEnv.srcPresent = true ∧
    bothEnv.src = testBytes.map Pull.byte ++ .eof :: [] := by decide

theorem witness_StepsKeepStatusRegisters : State.reset.StatusOk ∧ step State.reset = .next State.reset :=
  ⟨by unfold State.StatusOk; decide, rfl⟩

/-- A state with live engines and carried bytes meets the carry invariant. -/
theorem witness_StepsKeepCarryCounts :
    { active16 with e64 := absorbAll64 active16.e64 helloBytes }.CarryOk ∧
    step { active16 with e64 := absorbAll64 active16.e64 helloBytes } =
      .next { active16 with e64 := absorbAll64 active16.e64 helloBytes } :=
  ⟨by unfold State.CarryOk; decide, rfl⟩

/-- A state with a buffer, and another in the script. -/
theorem witness_StepsKeepInputsCanonical :
    { active16 with script := [.command (packetOf 1 0 0) (bufferEnv testBytes)] }.InputsOk ∧
    nextHas (step { active16 with script := [.command (packetOf 1 0 0) (bufferEnv testBytes)] })
      (fun t => t.env == bufferEnv testBytes) = true := by
  refine ⟨⟨by decide, fun p env h => ?_⟩, by decide⟩
  simp only [List.mem_singleton, HostEvent.command.injEq] at h
  rw [h.2]
  decide

end Sys2Proof.Tests
end

section
/-! SUPPORT. How a command ends: it responds, or it waits for ever; and what each end does to RSP, ERRSEEN and the response port (10_state.md rules R34, R35). -/

namespace Sys2Proof.Machine

/-! ### Response codes -/

theorem respBits_toNat_le (c : RespCode) : (respBits c).toNat ≤ 5 := by
  cases c <;> decide

/-- The bit of a code is the bit its RSP value numbers; OK has none. -/
theorem errBit_getLsbD (c : RespCode) (k : Nat) :
    (errBit c).getLsbD k = (decide (k = (respBits c).toNat) && decide (k ≠ 0)) := by
  by_cases hk : k < 6
  · cases c <;> revert k <;> decide
  · have hc := respBits_toNat_le c
    rw [BitVec.getLsbD_of_ge _ _ (by omega), decide_eq_false (by omega), Bool.false_and]

theorem errSeenAfter_getLsbD (old : BitVec 6) (c : RespCode) (k : Nat) :
    (errSeenAfter old c).getLsbD k =
      (old.getLsbD k || (decide (k = (respBits c).toNat) && decide (k ≠ 0))) := by
  rw [errSeenAfter, BitVec.getLsbD_or, errBit_getLsbD]

@[simp] theorem errSeenAfter_ok (old : BitVec 6) : errSeenAfter old .ok = old := BitVec.or_zero

/-! ### The two ends of a command -/

/-- From `s` to `t` a command completed with response `r`. -/
structure Responded (r : Response) (s t : State) : Prop where
  resp : t.resp = some r
  hung : t.hung = s.hung
  rsp : t.rsp = respBits r.code
  errseen : t.errseen = errSeenAfter s.errseen r.code

/-- From `s` to `t` a command began to wait for ever (20_memory.md rule R58). -/
structure Waiting (s t : State) : Prop where
  resp : t.resp = none
  hung : t.hung = true
  rsp : t.rsp = s.rsp
  errseen : t.errseen = s.errseen

/-- From `s` to `t` the status registers, the response port and the hang are as before. -/
structure StatusKept (s t : State) : Prop where
  resp : t.resp = s.resp
  hung : t.hung = s.hung
  rsp : t.rsp = s.rsp
  errseen : t.errseen = s.errseen

/-- From `s` to `t` a command came to one of its two ends. -/
inductive Ended (s t : State) : Prop
  | responded {r : Response} (h : Responded r s t)
  | waiting (h : Waiting s t)

/-- Of the two ends, only a completion leaves a response on the port. -/
theorem Ended.responded_of_resp {s t : State} {r : Response} (h : Ended s t) (hr : t.resp = some r) :
    Responded r s t := by
  cases h with
  | responded h => exact Option.some.inj (h.resp.symm.trans hr) ▸ h
  | waiting h => exact nomatch h.resp.symm.trans hr

theorem raise_responded (c : RespCode) (s : State) : Responded { code := c, digest := [] } s (raise c s) :=
  ⟨rfl, rfl, rfl, rfl⟩

theorem ExecResult.ended {i : Instr} {s t : State} (h : ExecResult i s t) : Ended s t := by
  cases h with
  | refused c => exact .responded (raise_responded c s)
  | done32 => exact .responded ⟨rfl, rfl, rfl, rfl⟩
  | done64 => exact .responded ⟨rfl, rfl, rfl, rfl⟩
  | done128 => exact .responded ⟨rfl, rfl, rfl, rfl⟩
  | ioError64 => exact .responded ⟨rfl, rfl, rfl, rfl⟩
  | ioError128 => exact .responded ⟨rfl, rfl, rfl, rfl⟩
  | hung64 => exact .waiting ⟨rfl, rfl, rfl, rfl⟩
  | hung128 => exact .waiting ⟨rfl, rfl, rfl, rfl⟩

/-- A packet at the command port ends in one of the two ways: an illegal one responds E_ILLEGAL. -/
theorem ended_of_runPacket {p : Packet} {s t : State} (h : runPacket p s = .next t) : Ended s t := by
  unfold runPacket at h
  split at h
  · exact (exec_cases h).ended
  · injection h with h
    exact h ▸ .responded (raise_responded .eIllegal s)

/-! ### One step per kind of event -/

section Step

variable {s : State} {rest : List HostEvent}

theorem step_reset (hs : s.script = .reset :: rest) : step s = .next (resetBlock { s with script := rest }) := by
  rw [step, hs]
  rfl

theorem step_regRead {n : Nat} (hs : s.script = .regRead n :: rest) (hh : s.hung = false) :
    step s = .next (readRegister n { s with script := rest }) := by
  simp [step, hs, runEvent, hh]

theorem step_digestRead {v : Engine} (hs : s.script = .digestRead v :: rest) (hh : s.hung = false) :
    step s = .next (readDigest v { s with script := rest }) := by
  simp [step, hs, runEvent, hh]

theorem step_command {p : Packet} {env : Env} (hs : s.script = .command p env :: rest) (hh : s.hung = false) :
    step s = runPacket p (acceptCommand env rest s) := by
  simp [step, hs, runEvent, hh]

end Step

/-- Accepting a packet touches no status register. -/
theorem Ended.of_acceptCommand {env : Env} {rest : List HostEvent} {s t : State}
    (h : Ended (acceptCommand env rest s) t) : Ended s t := by
  cases h with
  | responded h => exact .responded ⟨h.resp, h.hung, h.rsp, h.errseen⟩
  | waiting h => exact .waiting ⟨h.resp, h.hung, h.rsp, h.errseen⟩

/-- What a step does to the status registers: a reset, nothing, or the end of a command. -/
theorem step_status {s t : State} (h : step s = .next t) :
    (∃ rest, s.script = .reset :: rest ∧ t = resetBlock { s with script := rest }) ∨ StatusKept s t ∨
      (s.hung = false ∧ Ended s t) := by
  obtain rfl | hreset | ⟨-, n, rest, -, rfl⟩ | ⟨-, v, rest, -, rfl⟩ | ⟨hh, p, env, rest, -, rfl⟩ |
    ⟨hh, p, env, rest, i, -, -, hi⟩ := step_cases h
  · exact .inr (.inl ⟨rfl, rfl, rfl, rfl⟩)
  · exact .inl hreset
  · exact .inr (.inl ⟨rfl, rfl, rfl, rfl⟩)
  · exact .inr (.inl ⟨rfl, rfl, rfl, rfl⟩)
  · exact .inr (.inr ⟨hh, .of_acceptCommand (.responded (raise_responded _ _))⟩)
  · exact .inr (.inr ⟨hh, hi.ended.of_acceptCommand⟩)

end Sys2Proof.Machine
end

section
/-! SUPPORT. What a command does to the engines: every other engine stays, and its own phase follows the table (10_state.md rule R37). -/

namespace Sys2Proof.Machine

/-! ### Isolation of the engines -/

theorem sameEngine_of_eq {s t : State} (h32 : t.e32 = s.e32) (h64 : t.e64 = s.e64) (h128 : t.e128 = s.e128)
    (w : Engine) : SameEngine w s t := by
  cases w with
  | e32 => exact h32
  | e64 => exact h64
  | e128 => exact h128

theorem sameEngine_of_ne_e32 {w : Engine} {s t : State} (hw : w ≠ .e32) (h64 : t.e64 = s.e64)
    (h128 : t.e128 = s.e128) : SameEngine w s t := by
  cases w with
  | e32 => exact absurd rfl hw
  | e64 => exact h64
  | e128 => exact h128

theorem sameEngine_of_ne_e64 {w : Engine} {s t : State} (hw : w ≠ .e64) (h32 : t.e32 = s.e32)
    (h128 : t.e128 = s.e128) : SameEngine w s t := by
  cases w with
  | e32 => exact h32
  | e64 => exact absurd rfl hw
  | e128 => exact h128

theorem sameEngine_of_ne_e128 {w : Engine} {s t : State} (hw : w ≠ .e128) (h32 : t.e32 = s.e32)
    (h64 : t.e64 = s.e64) : SameEngine w s t := by
  cases w with
  | e32 => exact h32
  | e64 => exact h64
  | e128 => exact absurd rfl hw

theorem SameEngine.phase_eq {w : Engine} {s t : State} (h : SameEngine w s t) : t.phase w = s.phase w := by
  cases w with
  | e32 => exact congrArg E32.ph h
  | e64 => exact congrArg E64.ph h
  | e128 => exact congrArg E128.ph h

theorem SameEngine.digest_eq {w : Engine} {s t : State} (h : SameEngine w s t) : t.digest w = s.digest w := by
  cases w with
  | e32 => exact congrArg digest32 h
  | e64 => exact congrArg digest64 h
  | e128 => exact congrArg digest128 h

/-- A command touches the engine VAR names and no other. -/
theorem ExecResult.sameEngine {i : Instr} {s t : State} (h : ExecResult i s t) {w : Engine}
    (hw : w ≠ engineOf i) : SameEngine w s t := by
  cases h with
  | refused => exact sameEngine_of_eq rfl rfl rfl w
  | done32 e d hv => exact sameEngine_of_ne_e32 (hv ▸ hw) rfl rfl
  | done64 e d rest hv => exact sameEngine_of_ne_e64 (hv ▸ hw) rfl rfl
  | ioError64 rest hv => exact sameEngine_of_ne_e64 (hv ▸ hw) rfl rfl
  | hung64 hv => exact sameEngine_of_ne_e64 (hv ▸ hw) rfl rfl
  | done128 e d rest hv => exact sameEngine_of_ne_e128 (hv ▸ hw) rfl rfl
  | ioError128 rest hv => exact sameEngine_of_ne_e128 (hv ▸ hw) rfl rfl
  | hung128 hv => exact sameEngine_of_ne_e128 (hv ▸ hw) rfl rfl

/-- A command leaves the read ports, the script and all inputs but the source as they were. -/
theorem ExecResult.outside {i : Instr} {s t : State} (h : ExecResult i s t) :
    t.regOut = s.regOut ∧ t.digOut = s.digOut ∧ t.script = s.script ∧ t.env = { s.env with src := t.env.src } := by
  cases h <;> exact ⟨rfl, rfl, rfl, rfl⟩

/-- A command that ends with OK draws no free value. -/
theorem ExecResult.freeNext_of_ok {i : Instr} {s t : State} (h : ExecResult i s t) {r : Response}
    (hr : t.resp = some r) (hok : r.code = .ok) : t.freeNext = s.freeNext := by
  cases h with
  | ioError64 | ioError128 => cases hr; cases hok
  | hung64 | hung128 => cases hr
  | refused | done32 | done64 | done128 => rfl

/-! ### The transition table -/

/-- An error before execution leaves the phase (60_exceptions.md rule R188). -/
theorem phaseAfter_refused {c : RespCode} (hc : c = .eArg ∨ c = .eRange ∨ c = .eState) (op : Op)
    (ph : BitVec 2) : phaseAfter op c ph = ph := by
  obtain rfl | rfl | rfl := hc <;> rfl

/-- The table never leads to the unused phase 3 (10_state.md rule R36). -/
theorem phaseAfter_ne_three {ph : BitVec 2} (h : ph ≠ 3) (op : Op) (c : RespCode) : phaseAfter op c ph ≠ 3 := by
  cases c with
  | ok => cases op <;> simp [phaseAfter, phActive, phDone]
  | eIo => simp [phaseAfter, phIdle]
  | eRange | eArg | eState | eIllegal => exact h

/-- A command that responds takes its engine to the table's phase. -/
theorem ExecResult.phase_eq_phaseAfter {i : Instr} {s t : State} (h : ExecResult i s t) {r : Response}
    (hr : t.resp = some r) :
    t.phase (engineOf i) = phaseAfter (opOf i) r.code (s.phase (engineOf i)) := by
  cases h with
  | refused c hc =>
    cases hr
    exact (phaseAfter_refused hc _ _).symm
  | done32 e d hv he =>
    cases hr
    rw [hv]
    exact (done32_ph he).1
  | done64 e d rest hv he =>
    cases hr
    rw [hv]
    exact (done64_ph he).1
  | done128 e d rest hv he =>
    cases hr
    rw [hv]
    exact (done128_ph he).1
  | ioError64 rest hv =>
    cases hr
    rw [hv]
    rfl
  | ioError128 rest hv =>
    cases hr
    rw [hv]
    rfl
  | hung64 | hung128 => cases hr

/-- A stream command that needs ACTIVE is UPDATES. -/
theorem eq_updates_of_pullsSource {op : Op} (hp : pullsSource op) (hn : needsActive op = true) :
    op = .updates := by
  obtain rfl | rfl := hp
  · rfl
  · cases hn

/-- A command that needs ACTIVE and was executed, to OK or to E_IO, started in ACTIVE. -/
theorem ExecResult.started_active {i : Instr} {s t : State} (h : ExecResult i s t) {r : Response}
    (hr : t.resp = some r) (hn : needsActive (opOf i) = true) (hc : r.code = .ok ∨ r.code = .eIo) :
    s.phase (engineOf i) = phActive := by
  cases h with
  | refused c hc' =>
    cases hr
    obtain rfl | rfl | rfl := hc' <;> simp at hc
  | done32 e d hv he => rw [hv]; exact (done32_ph he).2 hn
  | done64 e d rest hv he => rw [hv]; exact (done64_ph he).2 hn
  | done128 e d rest hv he => rw [hv]; exact (done128_ph he).2 hn
  | ioError64 rest hv hop hph => rw [hv]; exact hph (eq_updates_of_pullsSource hop hn)
  | ioError128 rest hv hop hph => rw [hv]; exact hph (eq_updates_of_pullsSource hop hn)
  | hung64 | hung128 => cases hr

/-- A command that waits for ever leaves its engine in ACTIVE (assumption log 9). -/
theorem ExecResult.phase_of_no_resp {i : Instr} {s t : State} (h : ExecResult i s t) (hr : t.resp = none) :
    t.phase (engineOf i) = phActive := by
  cases h with
  | hung64 hv => rw [hv]; rfl
  | hung128 hv => rw [hv]; rfl
  | refused | done32 | done64 | done128 | ioError64 | ioError128 => cases hr

/-- A finishing command that ends with OK leaves its engine DONE with the response's digest in its
accumulators (10_state.md rule R38). -/
theorem ExecResult.digest_of_ok {i : Instr} {s t : State} (h : ExecResult i s t) {d : List Byte}
    (hret : returnsDigest (opOf i) = true) (hr : t.resp = some { code := .ok, digest := d }) :
    t.phase (engineOf i) = phDone ∧ t.digest (engineOf i) = d := by
  cases h with
  | refused c hc =>
    cases hr
    simp at hc
  | done32 e d' hv he =>
    cases hr
    rw [hv]
    exact ⟨(done32_digest he hret).1, (done32_digest he hret).2.symm⟩
  | done64 e d' rest hv he =>
    cases hr
    rw [hv]
    exact ⟨(done64_digest he hret).1, (done64_digest he hret).2.symm⟩
  | done128 e d' rest hv he =>
    cases hr
    rw [hv]
    exact ⟨(done128_digest he hret).1, (done128_digest he hret).2.symm⟩
  | ioError64 | ioError128 | hung64 | hung128 => cases hr

end Sys2Proof.Machine
end

section
/-! The invariant of the status registers, in two halves: the phases and the flags. -/

namespace Sys2Proof.Machine

/-- The half of StatusOk about RSP, ERRSEEN, the response port and the hang. -/
structure State.FlagsOk (s : State) : Prop where
  rsp_le : s.rsp.toNat ≤ 5
  errseen_zero : s.errseen.getLsbD 0 = false
  errseen_rsp : s.rsp ≠ 0 → s.errseen.getLsbD s.rsp.toNat = true
  rsp_resp : ∀ r, s.resp = some r → s.rsp = respBits r.code
  resp_hung : s.hung = true → s.resp = none

theorem statusOk_iff (s : State) : s.StatusOk ↔ (∀ v, s.phase v ≠ 3) ∧ s.FlagsOk := by
  constructor
  · rintro ⟨h32, h64, h128, h1, h2, h3, h4, h5⟩
    refine ⟨fun v => ?_, h1, h2, h3, h4, h5⟩
    cases v with
    | e32 => exact h32
    | e64 => exact h64
    | e128 => exact h128
  · rintro ⟨hph, h1, h2, h3, h4, h5⟩
    exact ⟨hph .e32, hph .e64, hph .e128, h1, h2, h3, h4, h5⟩

/-! ### The flags -/

theorem StatusKept.flagsOk {s t : State} (h : StatusKept s t) (hs : s.FlagsOk) : t.FlagsOk := by
  obtain ⟨hresp, hhung, hrsp, herr⟩ := h
  constructor
  · rw [hrsp]; exact hs.rsp_le
  · rw [herr]; exact hs.errseen_zero
  · rw [hrsp, herr]; exact hs.errseen_rsp
  · rw [hrsp, hresp]; exact hs.rsp_resp
  · rw [hhung, hresp]; exact hs.resp_hung

/-- A response sets RSP and the bit that RSP then numbers together. -/
theorem Responded.flagsOk {r : Response} {s t : State} (h : Responded r s t) (hs : s.FlagsOk)
    (hh : s.hung = false) : t.FlagsOk := by
  obtain ⟨hresp, hhung, hrsp, herr⟩ := h
  constructor
  · rw [hrsp]; exact respBits_toNat_le r.code
  · rw [herr, errSeenAfter_getLsbD, hs.errseen_zero]; simp
  · intro h0
    have hne : (respBits r.code).toNat ≠ 0 := fun hz => h0 (hrsp.trans (BitVec.eq_of_toNat_eq hz))
    rw [hrsp, herr, errSeenAfter_getLsbD]
    simp [hne]
  · intro r' hr'
    rw [hresp] at hr'
    rw [hrsp, Option.some.inj hr']
  · rw [hhung, hh]; nofun

theorem Waiting.flagsOk {s t : State} (h : Waiting s t) (hs : s.FlagsOk) : t.FlagsOk := by
  obtain ⟨hresp, hhung, hrsp, herr⟩ := h
  constructor
  · rw [hrsp]; exact hs.rsp_le
  · rw [herr]; exact hs.errseen_zero
  · rw [hrsp, herr]; exact hs.errseen_rsp
  · rw [hresp]; nofun
  · exact fun _ => hresp

theorem resetBlock_flagsOk (s : State) : (resetBlock s).FlagsOk := by
  constructor <;> simp

theorem step_keeps_flagsOk {s t : State} (hs : s.FlagsOk) (h : step s = .next t) : t.FlagsOk := by
  obtain ⟨rest, -, rfl⟩ | hkept | ⟨hh, hr | hw⟩ := step_status h
  · exact resetBlock_flagsOk _
  · exact hkept.flagsOk hs
  · exact hr.flagsOk hs hh
  · exact hw.flagsOk hs

/-! ### The phases -/

theorem phase_ne_three_of_sameEngine {s t : State} (hs : ∀ v, s.phase v ≠ 3) (h : ∀ v, SameEngine v s t)
    (v : Engine) : t.phase v ≠ 3 := by
  rw [(h v).phase_eq]
  exact hs v

/-- The phase of the command's engine follows the table or is ACTIVE; the others stay. -/
theorem ExecResult.phase_ne_three {i : Instr} {s t : State} (h : ExecResult i s t)
    (hs : ∀ v, s.phase v ≠ 3) (v : Engine) : t.phase v ≠ 3 := by
  by_cases hv : v = engineOf i
  · subst hv
    cases hr : t.resp with
    | none =>
      rw [h.phase_of_no_resp hr]
      decide
    | some r =>
      rw [h.phase_eq_phaseAfter hr]
      exact phaseAfter_ne_three (hs _) _ _
  · rw [(h.sameEngine hv).phase_eq]
    exact hs v

theorem resetBlock_phase (s : State) (v : Engine) : (resetBlock s).phase v = phIdle := by
  cases v <;> rfl

theorem step_keeps_phase_ne_three {s t : State} (hs : ∀ v, s.phase v ≠ 3) (h : step s = .next t) :
    ∀ v, t.phase v ≠ 3 := by
  obtain rfl | ⟨rest, -, rfl⟩ | ⟨-, n, rest, -, rfl⟩ | ⟨-, w, rest, -, rfl⟩ | ⟨-, p, env, rest, -, rfl⟩ |
    ⟨-, p, env, rest, i, -, -, hi⟩ := step_cases h
  · exact hs
  · intro v
    rw [resetBlock_phase]
    decide
  · exact phase_ne_three_of_sameEngine hs (sameEngine_of_eq rfl rfl rfl)
  · exact phase_ne_three_of_sameEngine hs (sameEngine_of_eq rfl rfl rfl)
  · exact phase_ne_three_of_sameEngine hs (sameEngine_of_eq rfl rfl rfl)
  · exact hi.phase_ne_three (phase_ne_three_of_sameEngine hs (sameEngine_of_eq rfl rfl rfl))

/-- Settles O50: the two halves of the invariant are kept separately, the flags by the end of each command,
the phases by the transition table. -/
theorem stepsKeepStatusRegisters : Obligations.StepsKeepStatusRegisters := by
  intro s t hs h
  obtain ⟨hph, hflags⟩ := (statusOk_iff s).1 hs
  exact (statusOk_iff t).2 ⟨step_keeps_phase_ne_three hph h, step_keeps_flagsOk hflags h⟩

end Sys2Proof.Machine
end

section
/-! The statements about the length counters, the frame of a command, the phases and the sticky error bits. -/

namespace Sys2Proof.Machine

/-- An admitted UPDATE.V adds LENGTH to LEN.V. -/
theorem updateCmd_len {s : State} {v : Engine} {o l : Word32} (hph : s.phase v = phActive)
    (hp : s.env.ibufPresent = true) (hr : o.toNat + l.toNat ≤ s.env.ibufLen.toNat) :
    ∃ t, exec (updateCmd v o l) s = .next t ∧ t.len v = s.len v + BitVec.ofNat 64 l.toNat := by
  cases v with
  | e32 => exact ⟨_, update32_admitted hp hr hph, by simp [State.len]⟩
  | e64 => exact ⟨_, update64_admitted hp hr hph, by simp [State.len]⟩
  | e128 => exact ⟨_, update128_admitted hp hr hph, by simp [State.len]⟩

/-- Settles O29: the absorb procedures add the number of bytes to a 64-bit word. -/
theorem lengthCountsModuloTwoTo64 : Obligations.LengthCountsModuloTwoTo64 := by
  refine ⟨fun v s o l hph hp hr => ?_, fun s bs rest hp hs => ⟨fun hph => ?_, fun hph => ?_⟩⟩
  · obtain ⟨t, ht, hlen⟩ := updateCmd_len hph hp hr
    exact ⟨t, ht, by rw [hlen]; simp⟩
  · exact ⟨_, updates64_admitted hp hs hph, by simp⟩
  · exact ⟨_, updates128_admitted hp hs hph, by simp⟩

/-- Settles O38: every result of a command leaves the other engines. -/
theorem commandsKeepOtherEngines : Obligations.CommandsKeepOtherEngines :=
  fun _ _ _ _ h hw => (exec_cases h).sameEngine hw

/-- Settles O39: what lies outside the engine, the engines beside it, and the end of the command. -/
theorem everyCommandFrame : Obligations.EveryCommandFrame := by
  intro i s t h
  have hres := exec_cases h
  obtain ⟨hreg, hdig, hscript, henv⟩ := hres.outside
  refine ⟨hreg, hdig, hscript, henv, fun w hw => hres.sameEngine hw, fun r hr => ?_⟩
  obtain ⟨-, hhung, hrsp, herr⟩ := hres.ended.responded_of_resp hr
  refine ⟨hhung, hrsp, herr, fun hok => ⟨?_, hres.freeNext_of_ok hr hok⟩⟩
  rw [herr, hok, errSeenAfter_ok]

/-- Settles O40, by the result of the command and, for the other engines, their isolation. -/
theorem phasesFollowTheTable : Obligations.PhasesFollowTheTable := by
  refine ⟨fun i s t r h hr => ?_, fun s rest hs => ⟨_, step_reset hs, resetBlock_phase _⟩⟩
  have hres := exec_cases h
  exact ⟨hres.phase_eq_phaseAfter hr, hres.started_active hr, fun w hw => (hres.sameEngine hw).phase_eq⟩

/-- No step but a reset clears an error bit. -/
theorem step_keeps_errseen_bit {s t : State} (h : step s = .next t) (hreset : ∀ rest, s.script ≠ .reset :: rest)
    {k : Nat} (hk : s.errseen.getLsbD k = true) : t.errseen.getLsbD k = true := by
  obtain ⟨rest, hs, -⟩ | hkept | ⟨-, hr | hw⟩ := step_status h
  · exact absurd hs (hreset rest)
  · rw [hkept.errseen, hk]
  · rw [hr.errseen, errSeenAfter_getLsbD, hk, Bool.true_or]
  · rw [hw.errseen, hk]

/-- A packet that gets a response leaves the status registers as that response says. -/
theorem step_command_responded {s t : State} {p : Packet} {env : Env} {rest : List HostEvent} {r : Response}
    (hs : s.script = .command p env :: rest) (hh : s.hung = false) (h : step s = .next t)
    (hr : t.resp = some r) : Responded r s t := by
  rw [step_command hs hh] at h
  exact (ended_of_runPacket h).of_acceptCommand.responded_of_resp hr

/-- Settles O45: every end of a command ORs at most its own bit into ERRSEEN, and only a reset writes it otherwise. -/
theorem errorBitsAreSticky : Obligations.ErrorBitsAreSticky := by
  refine ⟨fun s t h hreset k hk => step_keeps_errseen_bit h hreset hk,
    fun s t p env rest r hs hh h hr k => ?_, fun v => ?_, fun s rest hs => ⟨_, step_reset hs, rfl⟩⟩
  · rw [(step_command_responded hs hh h hr).errseen, errSeenAfter_getLsbD]
  · rw [errSeenRead, BitVec.getLsbD_and]
    exact Bool.and_false _

end Sys2Proof.Machine
end

section
/-! The register read port and the digest port (10_state.md rules R38, R39). -/

namespace Sys2Proof.Machine

/-! ### Bytes of a little-endian word -/

theorem testBit_leNat (bs : List Byte) (i : Nat) {j : Nat} (hj : j < 8) :
    (leNat bs).testBit (8 * i + j) = (bs.getD i 0).getLsbD j := by
  induction bs generalizing i with
  | nil => simp
  | cons b bs ih =>
    rw [leNat_cons, Nat.add_comm, Nat.testBit_two_pow_mul_add _ b.isLt]
    cases i with
    | zero => simp [hj, BitVec.getLsbD]
    | succ i =>
      rw [if_neg (by omega), show 8 * (i + 1) + j - 8 = 8 * i + j by omega, ih, List.getD_cons_succ]

/-- Byte `i` of a little-endian word is byte `i` of its sequence (40_mixdown_unit.md rule R97). -/
theorem le_extractLsb' {w i : Nat} (bs : List Byte) (hi : 8 * i + 8 ≤ w) :
    (le w bs).extractLsb' (8 * i) 8 = bs.getD i 0 := by
  refine BitVec.eq_of_getLsbD_eq fun j hj => ?_
  rw [BitVec.getLsbD_extractLsb', le, BitVec.getLsbD_ofNat, testBit_leNat bs i hj]
  simp [hj, show 8 * i + j < w by omega]

/-! ### The register read port -/

theorem portValue_live {ph : BitVec 2} (hph : ph ≠ phIdle) {w : Nat} (free : Word64) (v : BitVec w) :
    portValue ph free v = v.setWidth 64 := if_neg hph

/-- A register of the port's own width shows as it is. -/
theorem portValue_live_64 {ph : BitVec 2} (hph : ph ≠ phIdle) (free v : Word64) : portValue ph free v = v := by
  rw [portValue_live hph, BitVec.setWidth_eq]

/-- A carry byte below the count shows (10_state.md rule R31). -/
theorem carryValue_live {ph : BitVec 2} (hph : ph ≠ phIdle) (free : Word64) (cb : List Byte) {base cnt i : Nat}
    (hi : i < 8) (hc : base + i < cnt) :
    (carryValue ph free cb base cnt).extractLsb' (8 * i) 8 = cb.getD (base + i) 0 := by
  rw [carryValue, if_neg hph, le_extractLsb' _ (by omega)]
  simp [List.getD_eq_getElem?_getD, hi, hc]

/-- The carry bytes from index 0 on. -/
theorem carryValue_zero_live {ph : BitVec 2} (hph : ph ≠ phIdle) (free : Word64) (cb : List Byte) {cnt i : Nat}
    (hi : i < 8) (hc : i < cnt) : (carryValue ph free cb 0 cnt).extractLsb' (8 * i) 8 = cb.getD i 0 := by
  have h := carryValue_live hph free cb (base := 0) hi (i.zero_add.symm ▸ hc)
  rwa [Nat.zero_add] at h

/-- The numbers of the table of 10_state.md rule R39. -/
def listedNumbers : List Nat :=
  [0x00, 0x01, 0x02, 0x10, 0x11, 0x12, 0x13, 0x14, 0x20, 0x21, 0x22, 0x23, 0x24, 0x25, 0x26, 0x30, 0x31]

theorem regValue_unlisted (s : State) (free : Word64) {number : Nat} (h : number ∉ listedNumbers) :
    regValue s free number = 0 := by
  unfold regValue
  split
  case h_18 => rfl
  all_goals exact absurd (by decide) h

/-- Settles O46: the read is one step, and each number shows its register by the port's laws. -/
theorem registerReadsShowRegisters : Obligations.RegisterReadsShowRegisters := by
  intro s number rest hs hh
  refine ⟨_, regValue s (Config.freeValue s.freeNext) number, step_regRead hs hh, rfl, rfl,
    fun h32 => ⟨?_, ?_⟩, fun h64 => ⟨?_, ?_, ?_, ?_⟩, fun h128 => ⟨?_, ?_, ?_, ?_, ?_, ?_⟩, ?_, ?_, ?_, ?_, ?_,
    regValue_unlisted s _⟩ <;> rintro rfl
  · exact portValue_live h32 _ _
  · exact portValue_live_64 h32 _ _
  · exact portValue_live_64 h64 _ _
  · exact portValue_live_64 h64 _ _
  · exact fun i hi => carryValue_zero_live h64 _ _ (hi.trans s.e64.cnt.isLt) hi
  · exact portValue_live h64 _ _
  · exact portValue_live_64 h128 _ _
  · exact portValue_live_64 h128 _ _
  · exact portValue_live_64 h128 _ _
  · exact fun i hi hc => carryValue_zero_live h128 _ _ hi hc
  · exact fun i hi hc => carryValue_live h128 _ _ hi hc
  · exact portValue_live h128 _ _
  all_goals rfl

/-! ### The digest port -/

theorem digestValue_live {s : State} {v : Engine} (hph : s.phase v ≠ phIdle) (freeA freeB : Word64) :
    digestValue s freeA freeB v = s.digest v := by
  cases v with
  | e32 => exact if_neg hph
  | e64 => exact if_neg hph
  | e128 => exact if_neg hph

/-- Taking the read from the script touches no engine, and a live engine shows its accumulators' bytes. -/
theorem readDigest_digOut_live {s : State} {v : Engine} {rest : List HostEvent} (hph : s.phase v ≠ phIdle) :
    (readDigest v { s with script := rest }).digOut = some (s.digest v) := by
  have same : SameEngine v s { s with script := rest } := sameEngine_of_eq rfl rfl rfl v
  rw [readDigest_digOut, digestValue_live (same.phase_eq ▸ hph), same.digest_eq]

/-- Settles O47: the port shows the accumulators, and a finishing command that ends with OK leaves the
response's digest in them, in phase DONE. -/
theorem digestPortShowsTheDigest : Obligations.DigestPortShowsTheDigest := by
  refine ⟨fun s v rest hs hh => ⟨_, step_digestRead hs hh, rfl, readDigest_digOut_live⟩,
    fun i s t d rest h hret hr hh => ?_⟩
  have hres := exec_cases h
  obtain ⟨hph, hdig⟩ := hres.digest_of_ok hret hr
  have hung : t.hung = false := (hres.ended.responded_of_resp hr).hung.trans hh
  have hlive : t.phase (engineOf i) ≠ phIdle := by
    rw [hph]
    decide
  exact ⟨_, step_digestRead rfl hung, by rw [readDigest_digOut_live hlive, hdig]⟩

end Sys2Proof.Machine
end

section
/-! SUPPORT. Buffers of given bytes and the commands over a whole buffer (20_memory.md rules R52, R55, 30_encoding.md rule R82). -/

namespace Sys2Proof.Machine

/-! ### MemRead -/

/-- Rule R52: a read inside the buffer, and nothing else, is defined. -/
theorem memRead_eq_some_iff {e : Env} {addr n : Nat} {bs : List Byte} :
    memRead e addr n = some bs ↔
      (e.ibufPresent = true ∧ addr + n ≤ e.ibufLen.toNat) ∧ bytesAt e.ibuf addr n = bs := by
  rw [memRead, Option.ite_none_right_eq_some, Option.some.injEq]

theorem bytesAt_getElem? (m : Memory) (addr : Nat) {n i : Nat} (hi : i < n) :
    (bytesAt m addr n)[i]? = some (m.read (addr + i)) := by
  simp [bytesAt, hi]

@[simp] theorem bytesAt_zero (m : Memory) (addr : Nat) : bytesAt m addr 0 = [] := rfl

/-! ### A buffer of given bytes -/

/-- The length port of a buffer whose size a 32-bit LENGTH can express. -/
theorem bufferEnv_ibufLen_toNat {bs : List Byte} (h : bs.length < 2 ^ 32) :
    (bufferEnv bs).ibufLen.toNat = bs.length := by
  rw [bufferEnv, BitVec.toNat_ofNat, Nat.mod_eq_of_lt h]

/-- The range of a command over all of the buffer holds the buffer's bytes. -/
theorem bytesAt_bufferEnv {bs : List Byte} (h : bs.length < 2 ^ 32) :
    bytesAt (bufferEnv bs).ibuf (0 : Word32).toNat (bufferEnv bs).ibufLen.toNat = bs := by
  rw [bufferEnv_ibufLen_toNat h]
  exact bytesAt_ofBytes bs

theorem hashAll_eq_hashCmd (v : Engine) (l : Word32) : hashAll v l = hashCmd v 0 l := by
  cases v <;> rfl

/-- A range that starts at 0 and has the buffer's length lies inside it. -/
theorem zero_add_ibufLen_le (e : Env) : (0 : Word32).toNat + e.ibufLen.toNat ≤ e.ibufLen.toNat := by
  simp

/-! ### Commands whose range decides -/

section Range

variable {v : Engine} {s : State} {o l : Word32}

/-- A range that leaves the buffer is refused before the phase is looked at (60_exceptions.md rule R187). -/
theorem updateCmd_outside (hp : s.env.ibufPresent = true) (hr : s.env.ibufLen.toNat < o.toNat + l.toNat) :
    exec (updateCmd v o l) s = .next (raise .eRange s) := by
  cases v with
  | e32 => exact (exec_update32 o l s).trans (by rw [if_neg (by simp [hp]), if_pos hr])
  | e64 => exact (exec_update64 o l s).trans (by rw [if_neg (by simp [hp]), if_pos hr])
  | e128 => exact (exec_update128 o l s).trans (by rw [if_neg (by simp [hp]), if_pos hr])

/-- An admitted UPDATE.V of no bytes only responds. -/
theorem updateCmd_empty (hp : s.env.ibufPresent = true) (hph : s.phase v = phActive)
    (hr : o.toNat ≤ s.env.ibufLen.toNat) : exec (updateCmd v o 0) s = .next (respondOk [] s) := by
  have hr0 : o.toNat + (0 : Word32).toNat ≤ s.env.ibufLen.toNat := hr
  have hnone : bytesAt s.env.ibuf o.toNat (0 : Word32).toNat = [] := bytesAt_zero ..
  cases v with
  | e32 => exact (update32_admitted hp hr0 hph).trans (by rw [hnone, absorb32_nil])
  | e64 => exact (update64_admitted hp hr0 hph).trans (by rw [hnone, absorbAll64_nil])
  | e128 => exact (update128_admitted hp hr0 hph).trans (by rw [hnone, absorbAll128_nil])

/-- HASH.V over equal bytes, from states with the same engine V, gives the same response and engine. -/
theorem hashCmd_congr {s' : State} {o' l' : Word32}
    (hp : s.env.ibufPresent = true) (hr : o.toNat + l.toNat ≤ s.env.ibufLen.toNat)
    (hp' : s'.env.ibufPresent = true) (hr' : o'.toNat + l'.toNat ≤ s'.env.ibufLen.toNat)
    (hv : SameEngine v s s')
    (hbs : bytesAt s'.env.ibuf o'.toNat l'.toNat = bytesAt s.env.ibuf o.toNat l.toNat) :
    ∃ t t', exec (hashCmd v o l) s = .next t ∧ exec (hashCmd v o' l') s' = .next t' ∧
      t'.resp = t.resp ∧ SameEngine v t t' := by
  cases v with
  | e32 =>
    have he : s'.e32 = s.e32 := hv
    exact ⟨_, _, hash32_admitted hp hr, hash32_admitted hp' hr', by rw [hbs, he]; exact ⟨rfl, rfl⟩⟩
  | e64 =>
    have he : s'.e64 = s.e64 := hv
    exact ⟨_, _, hash64_admitted hp hr, hash64_admitted hp' hr', by rw [hbs, he]; exact ⟨rfl, rfl⟩⟩
  | e128 =>
    have he : s'.e128 = s.e128 := hv
    exact ⟨_, _, hash128_admitted hp hr, hash128_admitted hp' hr', by rw [hbs, he]; exact ⟨rfl, rfl⟩⟩

end Range

end Sys2Proof.Machine
end

section
/-! The statements about the bytes of the buffer (20_memory.md rules R51 to R55). -/

namespace Sys2Proof.Machine

/-- Settles O44, by the one condition under which MemRead answers. -/
theorem memReadInsideTheBuffer : Obligations.MemReadInsideTheBuffer := by
  refine fun e addr n => ⟨?_, fun bs h => ?_⟩
  · simp [Option.isSome_iff_exists, memRead_eq_some_iff]
  · obtain ⟨-, rfl⟩ := memRead_eq_some_iff.1 h
    exact ⟨bytesAt_length .., fun i hi => bytesAt_getElem? _ _ hi⟩

/-- Settles O12: the admitted UPDATE.V of each engine, its range read by MemRead. -/
theorem updateAbsorbsItsRange : Obligations.UpdateAbsorbsItsRange := by
  refine fun s o l hp hr => ⟨fun hph => ?_, fun hph => ?_, fun hph => ?_⟩
  · rw [update32_admitted hp hr hph, respondOk_eq]
    rfl
  · rw [update64_admitted hp hr hph, respondOk_eq]
    rfl
  · rw [update128_admitted hp hr hph, respondOk_eq]
    rfl

/-- Settles O30: an empty range absorbs nothing, and one that starts past the end leaves the buffer. -/
theorem emptyUpdateChangesNoEngine : Obligations.EmptyUpdateChangesNoEngine := by
  refine fun v s o hp hph => ⟨fun hr => ?_, fun hr => ?_⟩
  · rw [updateCmd_empty hp hph hr, respondOk_eq]
  · have hout : s.env.ibufLen.toNat < o.toNat + (0 : Word32).toNat := hr
    rw [updateCmd_outside hp hout, raise_eq]
    rfl

/-- Settles O26: both commands hash the same bytes with the same engine. -/
theorem subRangeEqualsFreshCopy : Obligations.SubRangeEqualsFreshCopy := by
  intro v s o l hp hr bs
  have hfit : bs.length < 2 ^ 32 := by simpa [bs] using l.isLt
  obtain ⟨t, u, ht, hu, hresp, hsame⟩ := hashCmd_congr (v := v) (s' := { s with env := bufferEnv bs })
    hp hr rfl (zero_add_ibufLen_le _) (sameEngine_of_eq rfl rfl rfl v) (bytesAt_bufferEnv hfit)
  exact ⟨t, u, ht, hashAll_eq_hashCmd v _ ▸ hu, hresp.symm, hsame.digest_eq.symm⟩

/-- A command that pulls no source leaves the answers of the source. -/
theorem ExecResult.src_of_not_pullsSource {i : Instr} {s t : State} (h : ExecResult i s t)
    (hop : ¬ pullsSource (opOf i)) : t.env.src = s.env.src := by
  cases h with
  | refused | done32 => rfl
  | done64 e d rest hv he hr => exact hr hop
  | done128 e d rest hv he hr => exact hr hop
  | ioError64 rest hv hpull => exact absurd hpull hop
  | ioError128 rest hv hpull => exact absurd hpull hop
  | hung64 hv hpull => exact absurd hpull hop
  | hung128 hv hpull => exact absurd hpull hop

/-- Settles O42: of the inputs a command writes at most the source, and that only by pulling it. -/
theorem commandsWriteNoMemory : Obligations.CommandsWriteNoMemory := by
  intro i s t h
  have hres := exec_cases h
  obtain ⟨-, -, -, henv⟩ := hres.outside
  have hsrc (hu : opOf i ≠ .updates) (hh : opOf i ≠ .hashs) : t.env.src = s.env.src :=
    hres.src_of_not_pullsSource (not_or.2 ⟨hu, hh⟩)
  refine ⟨fun a => ?_, ?_, ?_, ?_, ?_, hsrc⟩ <;> rw [henv]

end Sys2Proof.Machine
end

section
/-! The statements about the inputs along the steps, and about the step itself (20_memory.md rules R50, R52, R64). -/

namespace Sys2Proof.Machine

/-! ### The inputs stay canonical -/

/-- The invariant survives when the buffer stays canonical and nothing is added to the script. -/
theorem State.InputsOk.mono {s t : State} (hs : s.InputsOk) (henv : t.env.wf = true)
    (hscript : t.script ⊆ s.script) : t.InputsOk :=
  ⟨henv, fun p env hmem => hs.2 p env (hscript hmem)⟩

/-- Canonical form speaks of the buffer only, and a command writes none of it. -/
theorem ExecResult.env_wf {i : Instr} {s t : State} (h : ExecResult i s t) : t.env.wf = s.env.wf := by
  obtain ⟨-, -, -, henv⟩ := h.outside
  rw [henv]
  rfl

/-- Settles O54: a step drops the head of the script or nothing, and takes its inputs from that head. -/
theorem stepsKeepInputsCanonical : Obligations.StepsKeepInputsCanonical := by
  intro s t hs h
  have tail {ev : HostEvent} {rest : List HostEvent} (hscript : s.script = ev :: rest) : rest ⊆ s.script :=
    hscript ▸ List.subset_cons_self ev rest
  have head {p : Packet} {env : Env} {rest : List HostEvent} (hscript : s.script = .command p env :: rest) :
      env.wf = true := hs.2 p env (hscript ▸ List.mem_cons_self)
  obtain rfl | ⟨rest, hscript, rfl⟩ | ⟨-, n, rest, hscript, rfl⟩ | ⟨-, v, rest, hscript, rfl⟩ |
    ⟨-, p, env, rest, hscript, rfl⟩ | ⟨-, p, env, rest, i, hscript, -, hres⟩ := step_cases h
  · exact hs
  · exact hs.mono hs.1 (tail hscript)
  · exact hs.mono hs.1 (tail hscript)
  · exact hs.mono hs.1 (tail hscript)
  · exact hs.mono (head hscript) (tail hscript)
  · obtain ⟨-, -, hkept, -⟩ := hres.outside
    exact hs.mono (hres.env_wf.trans (head hscript)) (hkept ▸ tail hscript)

/-- Settles O55: at reset there is no buffer and no event. -/
theorem resetHasInputsCanonical : Obligations.ResetHasInputsCanonical :=
  ⟨rfl, fun _ _ hmem => absurd hmem List.not_mem_nil⟩

/-! ### One step -/

theorem step_of_script_nil {s : State} (hs : s.script = []) : step s = .next s := by
  rw [step, hs]

theorem runPacket_of_decode {p : Packet} {i : Instr} (h : decode p = .ok i) (s : State) :
    runPacket p s = exec i s := by
  rw [runPacket, h]

/-- A packet waits while an earlier command does (20_memory.md rule R58). -/
theorem step_command_of_hung {s : State} {p : Packet} {env : Env} {rest : List HostEvent}
    (hs : s.script = .command p env :: rest) (hh : s.hung = true) : step s = .next s := by
  simp [step, hs, runEvent, hh]

/-- Settles O5: the step takes the packet from the script and runs what it decodes to. -/
theorem stepRunsDecodedCommand : Obligations.StepRunsDecodedCommand := by
  refine ⟨fun s p env rest i hs hh hd => ?_, fun s hs => step_of_script_nil hs⟩
  rw [step_command hs hh, runPacket_of_decode hd, acceptCommand]

theorem runPacket_next (p : Packet) (s : State) : ∃ t, runPacket p s = .next t := by
  cases hd : decode p with
  | ok i =>
    obtain ⟨t, ht, -⟩ := exec_next i s
    exact ⟨t, (runPacket_of_decode hd s).trans ht⟩
  | error r => exact ⟨raise .eIllegal s, by rw [runPacket, hd]⟩

/-- An event of the outside world is performed, or waits for the hanging command. -/
theorem runEvent_next (ev : HostEvent) (rest : List HostEvent) (s : State) :
    ∃ t, runEvent ev rest s = .next t := by
  cases ev with
  | reset => exact ⟨_, rfl⟩
  | regRead n => cases hh : s.hung <;> exact ⟨_, by rw [runEvent, hh]; rfl⟩
  | digestRead v => cases hh : s.hung <;> exact ⟨_, by rw [runEvent, hh]; rfl⟩
  | command p env =>
    cases hh : s.hung with
    | true => exact ⟨s, by rw [runEvent, hh]; rfl⟩
    | false =>
      obtain ⟨t, ht⟩ := runPacket_next p (acceptCommand env rest s)
      exact ⟨t, by rw [runEvent, hh]; exact ht⟩

/-- Settles O43: every command has a result, and so has every event. -/
theorem everyCommandAnswersNext : Obligations.EveryCommandAnswersNext := by
  refine ⟨fun i s => ?_, fun s => ?_⟩
  · obtain ⟨t, ht, -⟩ := exec_next i s
    exact ⟨t, ht⟩
  · cases hs : s.script with
    | nil => exact ⟨s, step_of_script_nil hs⟩
    | cons ev rest =>
      obtain ⟨t, ht⟩ := runEvent_next ev rest s
      exact ⟨t, by rw [step, hs]; exact ht⟩

end Sys2Proof.Machine
end

section
/-! The statements about the byte source: one that ends, one that never ends, and feeds through buffer or source
(20_memory.md rules R56, R58, R69). -/

namespace Sys2Proof.Machine

/-- Settles O13: the admitted UPDATES.V of each engine. -/
theorem updatesAbsorbsItsSource : Obligations.UpdatesAbsorbsItsSource := by
  refine fun s bs rest hp hs => ⟨fun hph => ?_, fun hph => ?_⟩
  · rw [updates64_admitted hp hs hph, respondOk_eq]
    rfl
  · rw [updates128_admitted hp hs hph, respondOk_eq]
    rfl

/-! ### A source that never ends -/

section Endless

variable {s : State} {bs : List Byte}

theorem updates64_endless (hp : s.env.srcPresent = true) (hs : s.env.src = bs.map Pull.byte)
    (h : s.e64.ph = phActive) : exec .updates64 s = .next (hang (discard64 phActive (pulledTo [] s))) := by
  rw [exec_updates64, if_neg (by simp [hp]), if_pos h, stream64_never hs]

theorem updates128_endless (hp : s.env.srcPresent = true) (hs : s.env.src = bs.map Pull.byte)
    (h : s.e128.ph = phActive) : exec .updates128 s = .next (hang (discard128 phActive (pulledTo [] s))) := by
  rw [exec_updates128, if_neg (by simp [hp]), if_pos h, stream128_never hs]

theorem hashs64_endless (hp : s.env.srcPresent = true) (hs : s.env.src = bs.map Pull.byte) :
    exec .hashs64 s = .next (hang (discard64 phActive (pulledTo [] s))) := by
  rw [exec_hashs64, if_neg (by simp [hp]), stream64_never hs]

theorem hashs128_endless (hp : s.env.srcPresent = true) (hs : s.env.src = bs.map Pull.byte) :
    exec .hashs128 s = .next (hang (discard128 phActive (pulledTo [] s))) := by
  rw [exec_hashs128, if_neg (by simp [hp]), stream128_never hs]

end Endless

/-- Settles O35: an endless source hangs its command, a hang keeps packets waiting, and a reset ends it. -/
theorem endlessSourceNeverResponds : Obligations.EndlessSourceNeverResponds := by
  refine ⟨fun s bs hp hs => ?_, fun s p env rest hh hs => step_command_of_hung hs hh,
    fun s rest hs => ⟨_, step_reset hs, rfl, rfl, rfl⟩⟩
  intro stuck
  have stuck64 : stuck (hang (discard64 phActive (pulledTo [] s))) := by simp [stuck]
  have stuck128 : stuck (hang (discard128 phActive (pulledTo [] s))) := by simp [stuck]
  exact ⟨⟨_, hashs64_endless hp hs, stuck64, rfl⟩, ⟨_, hashs128_endless hp hs, stuck128, rfl⟩,
    fun h => ⟨_, updates64_endless hp hs h, stuck64, rfl⟩, fun h => ⟨_, updates128_endless hp hs h, stuck128, rfl⟩⟩

/-! ### Feeds -/

theorem fedBytes_cons (f : Feed) (fs : List Feed) : fedBytes (f :: fs) = f.bytes ++ fedBytes fs :=
  List.flatMap_cons

theorem feedsFit_cons {f : Feed} {fs : List Feed} :
    FeedsFit (f :: fs) ↔ f.bytes.length < 2 ^ 32 ∧ FeedsFit fs := List.forall_mem_cons

section Feeds

variable {ε φ : Type} {one : Feed → State → Host.Outcome State Fault Refusal}
  {engine : State → ε} {absorb : ε → List Byte → ε} {Live : ε → Prop} {others : State → φ}

/-- Feeds that each absorb their bytes into a live engine and leave the others absorb all their bytes together. -/
theorem feedAll_next (hnil : ∀ e, absorb e [] = e)
    (happend : ∀ e as bs, absorb e (as ++ bs) = absorb (absorb e as) bs)
    (hlive : ∀ e bs, Live e → Live (absorb e bs))
    (hone : ∀ f s, f.bytes.length < 2 ^ 32 → Live (engine s) →
      ∃ t, one f s = .next t ∧ engine t = absorb (engine s) f.bytes ∧ others t = others s)
    {fs : List Feed} (hfit : FeedsFit fs) {s : State} (hs : Live (engine s)) :
    ∃ t, feedAll one fs s = .next t ∧ engine t = absorb (engine s) (fedBytes fs) ∧ others t = others s := by
  induction fs generalizing s with
  | nil => exact ⟨s, rfl, (hnil _).symm, rfl⟩
  | cons f fs ih =>
    obtain ⟨hf, hfs⟩ := feedsFit_cons.1 hfit
    obtain ⟨t, ht, het, hot⟩ := hone f s hf hs
    obtain ⟨u, hu, heu, hou⟩ := ih hfs (het ▸ hlive _ _ hs)
    refine ⟨u, by rw [feedAll, ht]; exact hu, ?_, hou.trans hot⟩
    rw [heu, het, fedBytes_cons, happend]

end Feeds

theorem feed64_next (f : Feed) (s : State) (hf : f.bytes.length < 2 ^ 32) (hs : s.e64.ph = phActive) :
    ∃ t, feed64 f s = .next t ∧ t.e64 = absorbAll64 s.e64 f.bytes ∧ (t.e32, t.e128) = (s.e32, s.e128) := by
  rw [feed64]
  split
  · exact ⟨_, updates64_admitted (rest := []) rfl rfl hs, rfl, rfl⟩
  · refine ⟨_, update64_admitted rfl (zero_add_ibufLen_le (bufferEnv f.bytes)) hs, ?_, rfl⟩
    exact congrArg (absorbAll64 s.e64) (bytesAt_bufferEnv hf)

theorem feed128_next (f : Feed) (s : State) (hf : f.bytes.length < 2 ^ 32) (hs : s.e128.ph = phActive) :
    ∃ t, feed128 f s = .next t ∧ t.e128 = absorbAll128 s.e128 f.bytes ∧ (t.e32, t.e64) = (s.e32, s.e64) := by
  rw [feed128]
  split
  · exact ⟨_, updates128_admitted (rest := []) rfl rfl hs, rfl, rfl⟩
  · refine ⟨_, update128_admitted rfl (zero_add_ibufLen_le (bufferEnv f.bytes)) hs, ?_, rfl⟩
    exact congrArg (absorbAll128 s.e128) (bytesAt_bufferEnv hf)

/-- Any mixture of buffer and source feeds of E64 is one absorption of their bytes (42_hash64.md rule R148). -/
theorem feedAll_feed64 {fs : List Feed} (hfit : FeedsFit fs) {s : State} (hs : s.e64.ph = phActive) :
    ∃ t, feedAll feed64 fs s = .next t ∧ t.e64 = absorbAll64 s.e64 (fedBytes fs) ∧
      (t.e32, t.e128) = (s.e32, s.e128) :=
  feedAll_next (engine := State.e64) (Live := fun e => e.ph = phActive) (others := fun s => (s.e32, s.e128))
    absorbAll64_nil absorbAll64_append (fun e bs h => (absorbAll64_ph e bs).trans h) feed64_next hfit hs

/-- Any mixture of buffer and source feeds of E128 is one absorption of their bytes (43_hash128.md rule R168). -/
theorem feedAll_feed128 {fs : List Feed} (hfit : FeedsFit fs) {s : State} (hs : s.e128.ph = phActive) :
    ∃ t, feedAll feed128 fs s = .next t ∧ t.e128 = absorbAll128 s.e128 (fedBytes fs) ∧
      (t.e32, t.e64) = (s.e32, s.e64) :=
  feedAll_next (engine := State.e128) (Live := fun e => e.ph = phActive) (others := fun s => (s.e32, s.e64))
    absorbAll128_nil absorbAll128_append (fun e bs h => (absorbAll128_ph e bs).trans h) feed128_next hfit hs

/-- Settles O23: each mixture is one absorption of its bytes, and the bytes of the two are the same. -/
theorem feedsAbsorbTheirConcatenation : Obligations.FeedsAbsorbTheirConcatenation := by
  refine ⟨fun o l => ⟨decode_packPacket 0x08 o l, decode_packPacket 0x14 o l⟩,
    fun fs gs s hfs hgs hbytes => ⟨fun hph => ?_, fun hph => ?_⟩⟩
  · obtain ⟨t, ht, het, hot⟩ := feedAll_feed64 hfs hph
    obtain ⟨u, hu, heu, -⟩ := feedAll_feed64 hgs hph
    obtain ⟨h32, h128⟩ := Prod.mk.inj hot
    exact ⟨t, u, ht, hu, het, by rw [heu, het, hbytes], h32, h128⟩
  · obtain ⟨t, ht, het, hot⟩ := feedAll_feed128 hfs hph
    obtain ⟨u, hu, heu, -⟩ := feedAll_feed128 hgs hph
    obtain ⟨h32, h64⟩ := Prod.mk.inj hot
    exact ⟨t, u, ht, hu, het, by rw [heu, het, hbytes], h32, h64⟩

end Sys2Proof.Machine
end

section
/-! What the decoder accepts, said once, and the statements about encoding: a packet decodes to a command when ZERO
is clear and the table has that command at its OP and VAR (30_encoding.md rules R70 to R76). -/

namespace Sys2Proof

/-! ### The opcode table -/

/-- VAR = 3 selects no row (rule R73). -/
theorem commandOf_reservedVar (op : Nat) (o l : Word32) : commandOf op 3 o l = none := by
  match op with
  | 0 | 1 | 2 | 3 | 4 | 5 | _ + 6 => rfl

/-- OP = 6 and OP = 7 select no row (rule R74). -/
theorem commandOf_reservedOp {op : Nat} (h : 6 ≤ op) (var : Nat) (o l : Word32) : commandOf op var o l = none := by
  match op, h with
  | _ + 6, _ => rfl

/-- The operands do not decide whether the table has a row (rule R71). -/
theorem commandOf_isSome (op var : Nat) (o l : Word32) :
    (commandOf op var o l).isSome = (commandOf op var 0 0).isSome := by
  unfold commandOf
  split <;> rfl

/-- The row at a command's own OP and VAR is that command, with its operands as they stand. -/
theorem commandOf_opcodeWord (i : Instr) :
    commandOf (fieldOp (opcodeWord i)).toNat (fieldVar (opcodeWord i)).toNat (operandWords i).1 (operandWords i).2 =
      some i := by
  cases i <;> simp only [opcodeWord, operandWords] <;> rfl

theorem fieldZero_opcodeWord (i : Instr) : fieldZero (opcodeWord i) = 0 := by
  cases i <;> simp only [opcodeWord] <;> rfl

/-! ### The decoder -/

@[simp] theorem rowOrIllegal_eq_ok {row : Option Instr} {i : Instr} : rowOrIllegal row = .ok i ↔ row = some i := by
  cases row <;> simp

/-- The checks for the reserved values of VAR and OP refuse nothing that the table would accept. -/
theorem decode_eq_ok_iff {p : Packet} {i : Instr} :
    decode p = .ok i ↔ fieldZero (packetW0 p) = 0 ∧
      commandOf (fieldOp (packetW0 p)).toNat (fieldVar (packetW0 p)).toNat (packetOffset p) (packetLength p) = some i := by
  simp only [decode]
  split_ifs with hz hv ho
  · exact iff_of_false nofun fun h => hz h.1
  · simp [hv, commandOf_reservedVar]
  · have hop : 6 ≤ (fieldOp (packetW0 p)).toNat := by obtain h | h := ho <;> simp [h]
    simp [commandOf_reservedOp hop]
  · simp [not_not.mp hz]

theorem decode_packPacket_eq_ok_iff {w o l : Word32} {i : Instr} :
    decode (packPacket w o l) = .ok i ↔
      fieldZero w = 0 ∧ commandOf (fieldOp w).toNat (fieldVar w).toNat o l = some i := by
  simp [decode_eq_ok_iff]

/-- Settles O1: the table's row at a command's own W0 is that command. -/
theorem decodeEncodeAgree : Obligations.DecodeEncodeAgree :=
  fun i _ => decode_packPacket_eq_ok_iff.mpr ⟨fieldZero_opcodeWord i, commandOf_opcodeWord i⟩

/-- Settles O3: the encoder's operand words are zero there, and the rows of the ten commands use no operand. -/
theorem unusedOperandWordsIgnored : Obligations.UnusedOperandWordsIgnored := by
  refine ⟨fun i hi => ?_, fun o l => ?_⟩
  · have hunused : operandWords i = (0, 0) := by revert i; decide
    simp [encode, hunused]
  · refine ⟨?_, ?_, ?_, ?_, ?_, ?_, ?_, ?_, ?_, ?_⟩ <;> exact decode_packPacket_eq_ok_iff.mpr ⟨rfl, rfl⟩

/-- Settles O4: ten closed packets, evaluated. -/
theorem samplePacketsDecode : Obligations.SamplePacketsDecode := by
  unfold Obligations.SamplePacketsDecode
  decide

end Sys2Proof
end

section
/-! The packets that decode, in three forms that all say the same of W0: ZERO is clear and the table has a row at
OP and VAR (30_encoding.md rule R77). What an illegal packet does follows (60_exceptions.md rule R186). -/

namespace Sys2Proof

/-! ### OP and VAR as one field -/

/-- OP and VAR together: W0[4:0] (rules R73, R74). -/
def fieldOpVar (w0 : Word32) : BitVec 5 := w0.extractLsb' 0 5

theorem fieldVar_eq (w : Word32) : fieldVar w = (fieldOpVar w).extractLsb' 0 2 := by
  simp [fieldVar, fieldOpVar]

theorem fieldOp_eq (w : Word32) : fieldOp w = (fieldOpVar w).extractLsb' 2 3 := by
  simp [fieldOp, fieldOpVar]

/-- A word with ZERO clear is its OP and VAR. -/
theorem eq_setWidth_fieldOpVar {w : Word32} (h : fieldZero w = 0) : w = (fieldOpVar w).setWidth 32 := by
  have hz : w.toNat / 32 % 2 ^ 27 = 0 := by
    simpa [fieldZero, Nat.shiftRight_eq_div_pow] using congrArg BitVec.toNat h
  apply BitVec.eq_of_toNat_eq
  simp [fieldOpVar]
  omega

/-- The table of rule R75 has a row at this OP and VAR. -/
def hasRow (c : BitVec 5) : Bool := (commandOf (c.extractLsb' 2 3).toNat (c.extractLsb' 0 2).toNat 0 0).isSome

/-! ### Decoded, listed, not reserved -/

theorem exists_decode_eq_ok_iff (p : Packet) :
    (∃ i, decode p = .ok i) ↔ fieldZero (packetW0 p) = 0 ∧ hasRow (fieldOpVar (packetW0 p)) = true := by
  simp only [decode_eq_ok_iff, exists_and_left, ← Option.isSome_iff_exists, hasRow, ← fieldOp_eq, ← fieldVar_eq]
  rw [commandOf_isSome]

theorem mem_legalWords_iff (w : Word32) : w ∈ legalWords ↔ fieldZero w = 0 ∧ hasRow (fieldOpVar w) = true := by
  have hzero : ∀ w ∈ legalWords, fieldZero w = 0 := List.all_iff_forall_prop.mp (by decide)
  have hrow : ∀ c : BitVec 5, c.setWidth 32 ∈ legalWords ↔ hasRow c = true := by decide
  have key (h : fieldZero w = 0) : w ∈ legalWords ↔ hasRow (fieldOpVar w) = true := by
    rw [← hrow, ← eq_setWidth_fieldOpVar h]
  exact ⟨fun hw => ⟨hzero w hw, (key (hzero w hw)).mp hw⟩, fun ⟨hz, hr⟩ => (key hz).mpr hr⟩

/-- A mask of `n` ones after a shift by `k` keeps the field of `n` bits at bit `k`. -/
theorem shiftRight_and_ones (p : Packet) (k n : Nat) :
    (p >>> k) &&& BitVec.ofNat 96 (2 ^ n - 1) = (p.extractLsb' k n).setWidth 96 := by
  refine BitVec.eq_of_getLsbD_eq fun i hi => ?_
  simp [-BitVec.getLsbD_eq_getElem, BitVec.getLsbD_ofNat, hi, Bool.and_comm]

theorem zeroFieldClear_iff (p : Packet) : p.zeroFieldClear = true ↔ fieldZero (packetW0 p) = 0 := by
  have hmask : (p >>> 5) &&& 0x7FFFFFF#96 = (fieldZero (packetW0 p)).setWidth 96 := by
    simpa [fieldZero, packetW0] using shiftRight_and_ones p 5 27
  rw [Packet.zeroFieldClear, hmask, beq_iff_eq]
  exact ⟨fun h => by simpa using congrArg (BitVec.setWidth 27) h, fun h => by rw [h]; rfl⟩

theorem and_0x1F_eq_fieldOpVar (p : Packet) : p &&& 0x1F = (fieldOpVar (packetW0 p)).setWidth 96 := by
  simpa [fieldOpVar, packetW0] using shiftRight_and_ones p 0 5

/-- The reservations of VAR, of OP and of the stream forms look at the low five bits only, and leave there exactly
the rows of the table. -/
theorem reservations_eq_hasRow (p : Packet) :
    (p.varAssigned && p.opAssigned && p.formExists) = hasRow (fieldOpVar (packetW0 p)) := by
  have hlow : ∀ c : BitVec 5, (Packet.varAssigned (c.setWidth 96) && Packet.opAssigned (c.setWidth 96) &&
      Packet.formExists (c.setWidth 96)) = hasRow c := by decide
  rw [← hlow, ← and_0x1F_eq_fieldOpVar]
  simp [Packet.varAssigned, Packet.opAssigned, Packet.formExists, BitVec.and_assoc]

theorem wellFormed_iff (p : Packet) :
    p.wellFormed = true ↔ fieldZero (packetW0 p) = 0 ∧ hasRow (fieldOpVar (packetW0 p)) = true := by
  rw [← zeroFieldClear_iff, ← reservations_eq_hasRow, ← Bool.and_eq_true, Packet.wellFormed]
  simp only [Bool.and_assoc]

end Sys2Proof

namespace Sys2Proof.Machine

theorem runPacket_of_illegal {p : Packet} (h : ¬ ∃ i, decode p = .ok i) (s : State) :
    runPacket p s = .next (raise .eIllegal s) := by
  cases hd : decode p with
  | ok i => exact absurd ⟨i, hd⟩ h
  | error r => rw [runPacket, hd]

/-- Settles O2: the three forms say the same of W0, and a packet that does not decode raises E_ILLEGAL. -/
theorem illegalPacketsOnlyReport : Obligations.IllegalPacketsOnlyReport := by
  intro p
  have hlegal : (∃ i, decode p = .ok i) ↔ packetW0 p ∈ legalWords :=
    (exists_decode_eq_ok_iff p).trans (mem_legalWords_iff _).symm
  refine ⟨hlegal, (exists_decode_eq_ok_iff p).trans (wellFormed_iff p).symm, fun hw env rest s hs hh => ?_⟩
  rw [step_command hs hh, runPacket_of_illegal (mt hlegal.mp hw)]
  rfl

end Sys2Proof.Machine
end

section
/-! Which commands answer with a digest, and its size (30_encoding.md rule R80, 10_state.md rule R38). -/

namespace Sys2Proof.Machine

/-! ### The size of a digest -/

theorem beBytes_length {w : Nat} (n : Nat) (v : BitVec w) : (beBytes n v).length = n := by
  induction n with
  | zero => rfl
  | succ n ih => rw [beBytes, List.length_cons, ih]

theorem State.digest_length (s : State) (v : Engine) : (s.digest v).length = digestSize v := by
  cases v with
  | e32 => exact beBytes_length 4 _
  | e64 => exact beBytes_length 8 _
  | e128 => simp [State.digest, digest128, be64, beBytes_length, digestSize]

theorem digestSize_pos (v : Engine) : 0 < digestSize v := by
  cases v <;> decide

/-! ### Only finishing commands answer a digest -/

theorem done32_nil_of_not_returnsDigest {op : Op} {e e' : E32} {d : List Byte} (h : Done32 op e e' d)
    (hr : ¬ returnsDigest op = true) : d = [] := by
  cases op with
  | init => exact h.2
  | update => exact h.2.2
  | updates => exact h.elim
  | final | hash | hashs => exact absurd rfl hr

theorem done64_nil_of_not_returnsDigest {op : Op} {e e' : E64} {d : List Byte} (h : Done64 op e e' d)
    (hr : ¬ returnsDigest op = true) : d = [] := by
  cases op with
  | init => exact h.2
  | update | updates => exact h.2.2
  | final | hash | hashs => exact absurd rfl hr

theorem done128_nil_of_not_returnsDigest {op : Op} {e e' : E128} {d : List Byte} (h : Done128 op e e' d)
    (hr : ¬ returnsDigest op = true) : d = [] := by
  cases op with
  | init => exact h.2
  | update | updates => exact h.2.2
  | final | hash | hashs => exact absurd rfl hr

/-- Errors carry no digest (60_exceptions.md rule R181), and of the completions only the finishing ones do. -/
theorem ExecResult.finished_of_digest_ne_nil {i : Instr} {s t : State} (h : ExecResult i s t) {r : Response}
    (hr : t.resp = some r) (hd : r.digest ≠ []) : returnsDigest (opOf i) = true ∧ r.code = .ok := by
  cases h with
  | refused | ioError64 | ioError128 =>
    cases hr
    exact absurd rfl hd
  | hung64 | hung128 => cases hr
  | done32 e d hv he =>
    cases hr
    exact ⟨not_imp_comm.mp (done32_nil_of_not_returnsDigest he) hd, rfl⟩
  | done64 e d rest hv he =>
    cases hr
    exact ⟨not_imp_comm.mp (done64_nil_of_not_returnsDigest he) hd, rfl⟩
  | done128 e d rest hv he =>
    cases hr
    exact ⟨not_imp_comm.mp (done128_nil_of_not_returnsDigest he) hd, rfl⟩

/-- Settles O41: a finishing command that ends with OK answers the accumulators' bytes, which are at least four, and
no other response carries a byte. -/
theorem digestOnlyFromFinishingCommands : Obligations.DigestOnlyFromFinishingCommands := by
  intro i s t ⟨code, digest⟩ h hr
  have hres := exec_cases h
  have hfin (hd : digest ≠ []) : returnsDigest (opOf i) = true ∧ code = .ok :=
    hres.finished_of_digest_ne_nil hr hd
  have hdig : returnsDigest (opOf i) = true ∧ code = .ok → digest = t.digest (engineOf i) := by
    rintro ⟨hret, rfl⟩
    exact (hres.digest_of_ok hret hr).2.symm
  have hlen (hd : digest = t.digest (engineOf i)) : digest.length = digestSize (engineOf i) :=
    hd ▸ t.digest_length _
  refine ⟨⟨hfin, fun hok => List.ne_nil_of_length_pos ?_⟩, fun hd => ⟨hdig (hfin hd), hlen (hdig (hfin hd))⟩⟩
  exact hlen (hdig hok) ▸ digestSize_pos _

end Sys2Proof.Machine
end

section
/-! The rotates and the mixing functions of the integer_mixdown_unit (40_mixdown_unit.md rules R93 to R109). -/

namespace Sys2Proof.Machine

/-! ### ROTL -/

section Rotate

variable {n r : Nat}

/-- Rules R93, R94: below the width, ROTL is the library's left rotate. -/
theorem rotl_eq_rotateLeft (x : BitVec n) (hr : r < n) : rotl x r = x.rotateLeft r :=
  (BitVec.rotateLeft_eq_rotateLeftAux_of_lt hr).symm

/-- A bit that stays below the width moves up; one that leaves it comes in again at the bottom. -/
theorem rotl_getLsbD (x : BitVec n) (hr : r < n) {i : Nat} (hi : i < n) :
    (rotl x r).getLsbD ((i + r) % n) = x.getLsbD i := by
  rw [rotl_eq_rotateLeft x hr, BitVec.getLsbD_rotateLeft_of_le hr]
  rcases Nat.lt_or_ge (i + r) n with h | h
  · simp [Nat.mod_eq_of_lt h, h]
  · have hmod : (i + r) % n = i + r - n := by rw [Nat.mod_eq_sub_mod h, Nat.mod_eq_of_lt (by omega)]
    rw [hmod, decide_eq_true (show i + r - n < r by omega), show n - r + (i + r - n) = i by omega, cond_true]

@[simp] theorem rotl_zero (r : Nat) : rotl 0#n r = 0#n := by simp [rotl]

theorem rotl_allOnes (hr : r < n) : rotl (BitVec.allOnes n) r = BitVec.allOnes n := by
  rw [rotl_eq_rotateLeft _ hr]
  refine BitVec.eq_of_getLsbD_eq fun i hi => ?_
  rw [BitVec.getLsbD_rotateLeft_of_le hr]
  rcases Nat.lt_or_ge i r with h | h
  · simp [h, hi, show n - r + i < n by omega]
  · simp [Nat.not_lt.2 h, hi, show i - r < n by omega]

end Rotate

/-- Settles O6: the bits of a rotated word at every width, and the two words all of whose bits are equal. -/
theorem rotateMovesEveryBit : Obligations.RotateMovesEveryBit :=
  ⟨fun x _ _ _ hr hi => rotl_getLsbD x hr hi, fun x _ _ _ hr hi => rotl_getLsbD x hr hi,
    fun r _ hr => ⟨rotl_zero r, rotl_allOnes hr⟩⟩

/-! ### Mixing of 0 -/

@[simp] theorem xsr_zero {n : Nat} (s : Nat) : xsr 0#n s = 0#n := by simp [xsr]
@[simp] theorem scr32_zero : scr32 0#32 = 0#32 := by simp [scr32]
@[simp] theorem fmix32_zero : fmix32 0#32 = 0#32 := by simp [fmix32]
@[simp] theorem kmix64_zero : kmix64 0#64 = 0#64 := by simp [kmix64]
@[simp] theorem fmix64a_zero : fmix64a 0#64 = 0#64 := by simp [fmix64a]
@[simp] theorem k1mix_zero : k1mix 0#64 = 0#64 := by simp [k1mix]
@[simp] theorem k2mix_zero : k2mix 0#64 = 0#64 := by simp [k2mix]
@[simp] theorem fmix64_zero : fmix64 0#64 = 0#64 := by simp [fmix64]
@[simp] theorem blk64_zero : blk64 0#64 0#64 = 0#64 := by simp [blk64]

/-- Of zeros BLK32 leaves its additive constant (rule R100). -/
theorem blk32_zero : blk32 0#32 0#32 = n32 := by simp [blk32]

/-- Lane B of zeros takes lane A's constant, times 5, beside its own (rule R107). -/
theorem blk128_zero : blk128 0#64 0#64 0#64 0#64 = (n128a, n128a * 5 + n128b) := by simp [blk128]

@[simp] theorem finalLanes_zero : finalLanes 0#64 0#64 0#64 = (0#64, 0#64) := by simp [finalLanes]

/-! ### The digest of the empty input -/

@[simp] theorem beBytes_zero {w : Nat} (n : Nat) : beBytes n 0#w = List.replicate n 0#8 := by
  induction n with
  | zero => rfl
  | succ n ih => simp [beBytes, ih, List.replicate_succ]

theorem digest32_oneShot32_nil (e : E32) : digest32 (oneShot32 e []) = List.replicate (digestSize .e32) 0 := by
  simp [oneShot32, finalBody32, digest32, be32, digestSize]

theorem digest64_oneShot64_nil (e : E64) : digest64 (oneShot64 e []) = List.replicate (digestSize .e64) 0 := by
  simp [oneShot64, finalBody64, tail64, digest64, be64, digestSize]

theorem digest128_oneShot128_nil (e : E128) :
    digest128 (oneShot128 e []) = List.replicate (digestSize .e128) 0 := by
  simp [oneShot128, finalBody128, tailA, tailB, digest128, be64, digestSize]

/-- An admitted HASH.V of no bytes answers zeros, whatever the engine held. -/
theorem hashCmd_empty_resp {v : Engine} {s : State} {o : Word32} (hp : s.env.ibufPresent = true)
    (hr : o.toNat ≤ s.env.ibufLen.toNat) : ∃ t, exec (hashCmd v o 0) s = .next t ∧
      t.resp = some { code := .ok, digest := List.replicate (digestSize v) 0 } := by
  have hr0 : o.toNat + (0 : Word32).toNat ≤ s.env.ibufLen.toNat := hr
  have hnone : bytesAt s.env.ibuf o.toNat (0 : Word32).toNat = [] := bytesAt_zero ..
  cases v with
  | e32 => exact ⟨_, hash32_admitted hp hr0, by rw [hnone, respondOk_resp, digest32_oneShot32_nil]⟩
  | e64 => exact ⟨_, hash64_admitted hp hr0, by rw [hnone, respondOk_resp, digest64_oneShot64_nil]⟩
  | e128 => exact ⟨_, hash128_admitted hp hr0, by rw [hnone, respondOk_resp, digest128_oneShot128_nil]⟩

/-- Settles O7: each mixing function of 0, and the empty one-shot of each engine. -/
theorem mixingOfZeroIsZero : Obligations.MixingOfZeroIsZero :=
  ⟨scr32_zero, fmix32_zero, kmix64_zero, fmix64a_zero, k1mix_zero, k2mix_zero, fmix64_zero, blk64_zero,
    blk32_zero, blk128_zero.trans (by decide), fun _ _ _ hp hr => hashCmd_empty_resp hp hr⟩

end Sys2Proof.Machine
end

section
/-! The byte orders of the mixdown unit: LE, BE and the byte cascade (40_mixdown_unit.md rules R97, R98, R110). -/

namespace Sys2Proof.Machine

/-! ### LE -/

/-- Settles O10: the bytes of a little-endian word, at the two widths. -/
theorem littleEndianPlacesBytes : Obligations.LittleEndianPlacesBytes :=
  ⟨fun c _ _ hi => le_extractLsb' c (by omega), fun c _ _ hi => le_extractLsb' c (by omega)⟩

@[simp] theorem le_nil (w : Nat) : le w [] = 0 := rfl

/-- One more byte stands above the others, so adding it is XORing it. -/
theorem le_concat (w : Nat) (bs : List Byte) (b : Byte) :
    le w (bs ++ [b]) = le w bs ^^^ (b.setWidth w <<< (8 * bs.length)) := by
  refine BitVec.eq_of_getLsbD_eq fun k hk => ?_
  have hval : leNat (bs ++ [b]) = 2 ^ (8 * bs.length) * b.toNat + leNat bs := by
    rw [leNat_append, leNat_cons, leNat_nil, Nat.mul_zero, Nat.add_zero, Nat.add_comm]
  rw [le, le, BitVec.getLsbD_xor, BitVec.getLsbD_ofNat, BitVec.getLsbD_ofNat, hval,
    Nat.testBit_two_pow_mul_add _ (leNat_lt bs), BitVec.getLsbD_shiftLeft, BitVec.getLsbD_setWidth]
  rcases Nat.lt_or_ge k (8 * bs.length) with h | h
  · simp [h]
  · have hbs : (leNat bs).testBit k = false :=
      Nat.testBit_lt_two_pow ((leNat_lt bs).trans_le (Nat.pow_le_pow_right Nat.two_pos h))
    simp [hbs, hk, Nat.not_lt.2 h, show k - 8 * bs.length < w by omega, BitVec.getLsbD]

/-! ### BE -/

/-- Read from its last byte on, the big-endian form counts up the bytes of the word (rule R98). -/
theorem leNat_reverse_beBytes {w : Nat} (n : Nat) (v : BitVec w) :
    leNat (beBytes n v).reverse = v.toNat % 2 ^ (8 * n) := by
  induction n with
  | zero => simp [beBytes, Nat.mod_one]
  | succ n ih =>
    rw [beBytes, List.reverse_cons, leNat_append, ih, List.length_reverse, beBytes_length, leNat_cons, leNat_nil,
      BitVec.extractLsb'_toNat, Nat.shiftRight_eq_div_pow, Nat.mul_add 8 n, Nat.pow_add, Nat.mod_mul]
    rfl

/-- BE and LE mirror each other when the bytes are as many as the word has. -/
theorem le_reverse_beBytes {w n : Nat} (v : BitVec w) (h : w ≤ 8 * n) : le w (beBytes n v).reverse = v := by
  have hv : v.toNat < 2 ^ (8 * n) := v.isLt.trans_le (Nat.pow_le_pow_right Nat.two_pos h)
  rw [le, leNat_reverse_beBytes, Nat.mod_eq_of_lt hv, BitVec.ofNat_toNat, BitVec.setWidth_eq]

/-- Settles O9: four bytes are a 32-bit word and eight a 64-bit one. -/
theorem digestBytesMirrorDecode : Obligations.DigestBytesMirrorDecode :=
  ⟨fun v => ⟨le_reverse_beBytes v (by decide), beBytes_length 4 v⟩,
    fun v => ⟨le_reverse_beBytes v (by decide), beBytes_length 8 v⟩⟩

/-! ### The byte cascade -/

/-- Rule R110 from any base: the cascade runs downwards, and each byte it XORs in is the top byte of what is left. -/
theorem cascade_eq_xor_le {cb : List Byte} {base n : Nat} (h : Word64) (hn : base + n ≤ cb.length) :
    cascade cb base n h = h ^^^ le 64 ((cb.drop base).take n) := by
  induction n generalizing h with
  | zero => simp [cascade]
  | succ n ih =>
    have hlt : n < (cb.drop base).length := by rw [List.length_drop]; omega
    have hlen : ((cb.drop base).take n).length = n := List.length_take_of_le hlt.le
    rw [cascade, ih _ (by omega), ← List.take_append_getElem hlt, le_concat, hlen, List.getElem_drop,
      List.getD_eq_getElem _ _ (by omega), BitVec.xor_assoc, BitVec.xor_comm (le 64 _)]

/-- Settles O8: the cascade over all of the bytes. -/
theorem cascadeIsLittleEndianXor : Obligations.CascadeIsLittleEndianXor := fun c h _ => by
  rw [cascade_eq_xor_le h (Nat.zero_add _).le, List.drop_zero, List.take_length]

end Sys2Proof.Machine
end

section
/-! The absorb procedure of E32, one 4-byte word at a time (41_hash32.md rules R121, R125). -/

namespace Sys2Proof.Machine

/-! ### Words at the head of a byte sequence -/

/-- Every byte sequence is some whole words and then fewer than four bytes. -/
theorem word_induction {P : List Byte → Prop} (short : ∀ bs, bs.length < 4 → P bs)
    (word : ∀ w bs, w.length = 4 → P bs → P (w ++ bs)) : ∀ bs, P bs
  | b0 :: b1 :: b2 :: b3 :: bs => word [b0, b1, b2, b3] bs rfl (word_induction short word bs)
  | [] => short [] (by simp)
  | [b0] => short [b0] (by simp)
  | [b0, b1] => short [b0, b1] (by simp)
  | [b0, b1, b2] => short [b0, b1, b2] (by simp)

theorem wordsOf_word_append {w : List Byte} (hw : w.length = 4) (bs : List Byte) :
    wordsOf (w ++ bs) = (le 32 w :: (wordsOf bs).1, (wordsOf bs).2) := by
  obtain ⟨b0, b1, b2, b3, rfl⟩ := List.length_eq_four.1 hw
  rfl

theorem wordsOf_of_lt {bs : List Byte} (h : bs.length < 4) : wordsOf bs = ([], bs) := by
  match bs with
  | [] | [_] | [_, _] | [_, _, _] => rfl
  | _ :: _ :: _ :: _ :: _ =>
    simp only [List.length_cons] at h
    omega

/-- A slice that starts behind a prefix is a slice of what follows the prefix. -/
theorem slice_length_add_append (as bs : List Byte) (i n : Nat) :
    slice (as ++ bs) (as.length + i) n = slice bs i n := by
  rw [slice, slice, List.drop_length_add_append]

theorem slice_zero_append (as bs : List Byte) : slice (as ++ bs) 0 as.length = as := List.take_left

/-! ### ABSORB32 -/

theorem absorbWords32_of_lt (acc : Word32) {bs : List Byte} (h : bs.length < 4) :
    absorbWords32 acc bs = if bs.isEmpty then acc else acc ^^^ scr32 (le 32 bs) := by
  simp only [absorbWords32, wordsOf_of_lt h, List.foldl_nil]

theorem absorbWords32_word_append (acc : Word32) {w : List Byte} (hw : w.length = 4) (bs : List Byte) :
    absorbWords32 acc (w ++ bs) = absorbWords32 (blk32 acc (le 32 w)) bs := by
  simp only [absorbWords32, wordsOf_word_append hw, List.foldl_cons]

theorem absorb32Indexed_of_lt (acc : Word32) {bs : List Byte} (h : bs.length < 4) :
    absorb32Indexed acc bs = if bs.isEmpty then acc else acc ^^^ scr32 (le 32 bs) := by
  rw [absorb32Indexed, Nat.div_eq_of_lt h, Nat.mod_eq_of_lt h]
  cases bs with
  | nil => rfl
  | cons b bs => simp [slice]

/-- The indexed loop takes the word at the head first, and the rest with every index four lower. -/
theorem absorb32Indexed_word_append (acc : Word32) {w : List Byte} (hw : w.length = 4) (bs : List Byte) :
    absorb32Indexed acc (w ++ bs) = absorb32Indexed (blk32 acc (le 32 w)) bs := by
  have hfirst : slice (w ++ bs) (4 * 0) 4 = w := hw ▸ slice_zero_append w bs
  have hrest (i n : Nat) : slice (w ++ bs) (4 * (i + 1)) n = slice bs (4 * i) n := by
    rw [Nat.mul_succ, Nat.add_comm, ← hw, slice_length_add_append]
  have hdiv : (w ++ bs).length / 4 = bs.length / 4 + 1 := by rw [List.length_append]; omega
  have hmod : (w ++ bs).length % 4 = bs.length % 4 := by rw [List.length_append]; omega
  simp only [absorb32Indexed, hdiv, hmod, hrest, List.range_succ_eq_map, List.foldl_cons, List.foldl_map, hfirst]

theorem absorbWords32_eq_indexed (acc : Word32) (bs : List Byte) :
    absorbWords32 acc bs = absorb32Indexed acc bs := by
  induction bs using word_induction generalizing acc with
  | short bs h => rw [absorbWords32_of_lt acc h, absorb32Indexed_of_lt acc h]
  | word w bs hw ih => rw [absorbWords32_word_append acc hw, absorb32Indexed_word_append acc hw, ih]

/-- Settles O19: the recursion over words and the indexed loop take the same words and the same tail. -/
theorem absorb32FollowsTheLoop : Obligations.Absorb32FollowsTheLoop := by
  intro e s
  rw [absorb32, absorbWords32_eq_indexed]

/-! ### Slices of E32 -/

theorem absorbWords32_append (acc : Word32) {as : List Byte} (h : as.length % 4 = 0) (bs : List Byte) :
    absorbWords32 acc (as ++ bs) = absorbWords32 (absorbWords32 acc as) bs := by
  induction as using word_induction generalizing acc with
  | short as hlt =>
    obtain rfl : as = [] := List.length_eq_zero_iff.1 (by omega)
    rfl
  | word w as hw ih =>
    have has : as.length % 4 = 0 := by rw [List.length_append] at h; omega
    rw [List.append_assoc, absorbWords32_word_append acc hw, absorbWords32_word_append acc hw, ih _ has]

theorem absorb32_append (e : E32) {as : List Byte} (h : as.length % 4 = 0) (bs : List Byte) :
    absorb32 e (as ++ bs) = absorb32 (absorb32 e as) bs := by
  simp only [absorb32, absorbWords32_append e.acc h, List.length_append, BitVec.ofNat_add, BitVec.add_assoc]

theorem foldl_absorb32 (e : E32) {slices : List (List Byte)} (h : ∀ s ∈ slices, s.length % 4 = 0)
    (last : List Byte) : (slices ++ [last]).foldl absorb32 e = absorb32 e (slices.flatten ++ last) := by
  induction slices generalizing e with
  | nil => rfl
  | cons s slices ih =>
    obtain ⟨hs, hslices⟩ := List.forall_mem_cons.1 h
    rw [List.cons_append, List.foldl_cons, ih _ hslices, List.flatten_cons, List.append_assoc,
      absorb32_append e hs]

/-- Settles O22: a slice of whole words leaves no tail, and the spec's two cuts of "Hello, world!" are computed. -/
theorem split32OnWordBoundaries : Obligations.Split32OnWordBoundaries :=
  ⟨fun e _ last h => foldl_absorb32 e h last, by decide, by decide, by decide⟩

end Sys2Proof.Machine
end

section
/-! The commands of E32, and INIT.V and HASH.V of every engine (41_hash32.md rules R120 to R126). -/

namespace Sys2Proof.Machine

/-- The first word of a command's packet is its row of the table (30_encoding.md rules R70, R75). -/
theorem packetW0_encode (i : Instr) : packetW0 (encode i) = opcodeWord i := packetW0_packPacket ..

/-! ### INIT.V -/

/-- Settles O11: the answer of each INIT.V, field by field. -/
theorem initZeroesItsEngine : Obligations.InitZeroesItsEngine := by
  refine ⟨⟨packetW0_encode .init32, packetW0_encode .init64, packetW0_encode .init128⟩, fun s => ⟨?_, ?_, ?_⟩⟩
  · rw [exec_init32, respondOk_eq]
    rfl
  · rw [exec_init64, respondOk_eq]
    rfl
  · rw [exec_init128, respondOk_eq]
    rfl

/-! ### FINAL.32 -/

theorem final32_refused {s : State} (h : s.e32.ph ≠ phActive) : exec .final32 s = .next (raise .eState s) := by
  rw [exec_final32, if_neg h]

theorem finalBody32_eq (e : E32) : finalBody32 e =
    { acc := fmix32 (e.acc ^^^ e.len.extractLsb' 0 32), len := e.len, ph := phDone } := by
  rw [finalBody32, BitVec.setWidth_eq_extractLsb' (by decide)]

/-- The four bytes of DIG32 (10_state.md rule R38). -/
theorem digest32_eq (e : E32) : digest32 e =
    [e.acc.extractLsb' 24 8, e.acc.extractLsb' 16 8, e.acc.extractLsb' 8 8, e.acc.extractLsb' 0 8] := rfl

/-- Settles O14: the body of FINAL.32 and its four bytes in ACTIVE, the phase check in any other phase. -/
theorem final32GivesItsDigest : Obligations.Final32GivesItsDigest := by
  refine ⟨packetW0_encode .final32, fun s => ⟨fun h => ?_, fun h => ?_⟩⟩
  · rw [final32_admitted h, respondOk_eq, digest32_eq, finalBody32_eq]
    rfl
  · rw [final32_refused h, raise_eq]
    rfl

/-! ### HASH.V -/

/-- Settles O17: of three OK responses in a row only the last is left, so the engine alone carries from one
command to the next. -/
theorem hashIsInitUpdateFinal : Obligations.HashIsInitUpdateFinal := by
  intro v s o l hp hr
  cases v with
  | e32 =>
    refine ⟨_, _, _, exec_init32 s, update32_admitted hp hr rfl, final32_admitted (absorb32_ph ..),
      finalBody32_ph _, rfl, (hash32_admitted hp hr).trans ?_⟩
    simp only [respondOk_eq, oneShot32]
  | e64 =>
    refine ⟨_, _, _, exec_init64 s, update64_admitted hp hr rfl, final64_admitted (absorbAll64_ph ..),
      finalBody64_ph _, rfl, (hash64_admitted hp hr).trans ?_⟩
    simp only [respondOk_eq, oneShot64]
  | e128 =>
    refine ⟨_, _, _, exec_init128 s, update128_admitted hp hr rfl, final128_admitted (absorbAll128_ph ..),
      finalBody128_ph _, rfl, (hash128_admitted hp hr).trans ?_⟩
    simp only [respondOk_eq, oneShot128]

/-- A one-shot starts from INIT.32, which keeps no register of E32. -/
theorem oneShot32_congr (e e' : E32) (bs : List Byte) : oneShot32 e bs = oneShot32 e' bs := rfl

/-- Settles O25: both commands hash the same bytes, and what E32 held before does not enter. -/
theorem hash32DependsOnItsBytesOnly : Obligations.Hash32DependsOnItsBytesOnly := by
  intro s t o o' l hp hr hp' hr' hbytes
  refine ⟨_, _, hash32_admitted hp hr, hash32_admitted hp' hr', ?_⟩
  rw [bytesAt_congr hbytes, oneShot32_congr s.e32 t.e32]
  exact ⟨rfl, rfl⟩

end Sys2Proof.Machine
end

section
/-! The invariant of the carry counts along the steps (42_hash64.md rule R141, 43_hash128.md rule R161). -/

namespace Sys2Proof.Machine

/-! ### A count beside a length -/

/-- A `k`-bit carry count is the length modulo the block size `2^k`. -/
def Counts {k : Nat} (cnt : BitVec k) (len : Word64) : Prop := cnt = len.setWidth k

theorem counts_iff {k : Nat} {cnt : BitVec k} {len : Word64} : Counts cnt len ↔ cnt.toNat = len.toNat % 2 ^ k := by
  rw [Counts, ← BitVec.toNat_inj, BitVec.toNat_setWidth]

theorem counts_zero {k : Nat} : Counts (0 : BitVec k) 0 := by simp [Counts]

/-- Bytes counted on both sides keep the count in step; that LEN.V wraps does not matter, `2^k` divides `2^64`. -/
theorem Counts.add {k : Nat} {cnt : BitVec k} {len : Word64} (hk : k ≤ 64) (h : Counts cnt len) (n : Nat) :
    Counts (cnt + BitVec.ofNat k n) (len + BitVec.ofNat 64 n) := by
  rw [Counts, BitVec.setWidth_add _ _ hk, BitVec.setWidth_ofNat_of_le hk, ← show cnt = len.setWidth k from h]

/-- A completed operation keeps the count of a live E64 in step. -/
theorem Done64.counts {op : Op} {e e' : E64} {d : List Byte} (h : Done64 op e e' d)
    (he : e.ph ≠ phIdle → Counts e.cnt e.len) : Counts e'.cnt e'.len := by
  have active (hph : e.ph = phActive) : Counts e.cnt e.len := he (hph ▸ by decide)
  cases op with
  | init =>
    obtain ⟨rfl, -⟩ := h
    exact counts_zero
  | update | updates =>
    obtain ⟨hph, ⟨bs, rfl⟩, -⟩ := h
    rw [absorbAll64_cnt, absorbAll64_len]
    exact (active hph).add (by decide) bs.length
  | final =>
    obtain ⟨hph, rfl, -⟩ := h
    rw [finalBody64_cnt, finalBody64_len]
    exact active hph
  | hash | hashs =>
    obtain ⟨⟨bs, rfl⟩, -⟩ := h
    rw [oneShot64, finalBody64_cnt, finalBody64_len, absorbAll64_cnt, absorbAll64_len]
    exact counts_zero.add (by decide) bs.length

/-- A completed operation keeps the count of a live E128 in step. -/
theorem Done128.counts {op : Op} {e e' : E128} {d : List Byte} (h : Done128 op e e' d)
    (he : e.ph ≠ phIdle → Counts e.cnt e.len) : Counts e'.cnt e'.len := by
  have active (hph : e.ph = phActive) : Counts e.cnt e.len := he (hph ▸ by decide)
  cases op with
  | init =>
    obtain ⟨rfl, -⟩ := h
    exact counts_zero
  | update | updates =>
    obtain ⟨hph, ⟨bs, rfl⟩, -⟩ := h
    rw [absorbAll128_cnt, absorbAll128_len]
    exact (active hph).add (by decide) bs.length
  | final =>
    obtain ⟨hph, rfl, -⟩ := h
    rw [finalBody128_cnt, finalBody128_len]
    exact active hph
  | hash | hashs =>
    obtain ⟨⟨bs, rfl⟩, -⟩ := h
    rw [oneShot128, finalBody128_cnt, finalBody128_len, absorbAll128_cnt, absorbAll128_len]
    exact counts_zero.add (by decide) bs.length

/-! ### The state -/

/-- Both engines, while live, hold their counts in step. -/
structure State.CountsOk (s : State) : Prop where
  e64 : s.e64.ph ≠ phIdle → Counts s.e64.cnt s.e64.len
  e128 : s.e128.ph ≠ phIdle → Counts s.e128.cnt s.e128.len

theorem carryOk_iff (s : State) : s.CarryOk ↔ (s.hung = false → s.CountsOk) := by
  constructor
  · intro h hh
    obtain ⟨h64, h128⟩ := h hh
    exact ⟨fun hph => counts_iff.2 (h64 hph), fun hph => counts_iff.2 (h128 hph)⟩
  · intro h hh
    obtain ⟨h64, h128⟩ := h hh
    exact ⟨fun hph => counts_iff.1 (h64 hph), fun hph => counts_iff.1 (h128 hph)⟩

theorem resetBlock_countsOk (s : State) : (resetBlock s).CountsOk :=
  ⟨fun h => absurd rfl h, fun h => absurd rfl h⟩

/-- A command that does not hang keeps the counts in step: the engine it lost to E_IO is IDLE. -/
theorem ExecResult.countsOk {i : Instr} {s t : State} (h : ExecResult i s t) (hs : s.CountsOk)
    (hh : t.hung = false) : t.CountsOk := by
  cases h with
  | refused => exact ⟨hs.e64, hs.e128⟩
  | done32 => exact ⟨hs.e64, hs.e128⟩
  | done64 e d rest hv he => exact ⟨fun _ => he.counts hs.e64, hs.e128⟩
  | done128 e d rest hv he => exact ⟨hs.e64, fun _ => he.counts hs.e128⟩
  | ioError64 => exact ⟨fun hph => absurd rfl hph, hs.e128⟩
  | ioError128 => exact ⟨hs.e64, fun hph => absurd rfl hph⟩
  | hung64 | hung128 => cases hh

/-- Settles O52: absorbing counts each byte in both registers, a reset or E_IO leaves its engine IDLE, and while a
command hangs nothing is claimed. -/
theorem stepsKeepCarryCounts : Obligations.StepsKeepCarryCounts := by
  intro s t hs h
  rw [carryOk_iff] at hs ⊢
  obtain rfl | ⟨rest, -, rfl⟩ | ⟨hh, n, rest, -, rfl⟩ | ⟨hh, v, rest, -, rfl⟩ | ⟨hh, p, env, rest, -, rfl⟩ |
    ⟨hh, p, env, rest, i, -, -, hi⟩ := step_cases h
  · exact hs
  · exact fun _ => resetBlock_countsOk _
  · exact fun _ => ⟨(hs hh).e64, (hs hh).e128⟩
  · exact fun _ => ⟨(hs hh).e64, (hs hh).e128⟩
  · exact fun _ => ⟨(hs hh).e64, (hs hh).e128⟩
  · exact fun hung => hi.countsOk ⟨(hs hh).e64, (hs hh).e128⟩ hung

end Sys2Proof.Machine
end

section
/-! The absorb procedure of E64 and its digest, block by block (42_hash64.md rules R141, R144, R149). -/

namespace Sys2Proof.Machine

/-! ### The carried bytes -/

/-- Setting a carry byte at the count lengthens the carried bytes by it. -/
theorem take_set_succ {n : Nat} (cb : Vector Byte n) (i : Nat) (b : Byte) (hi : i < n) :
    (cb.set i b hi).toList.take (i + 1) = cb.toList.take i ++ [b] := by
  rw [Vector.toList_set, List.take_set, List.take_succ_eq_append_getElem (by simpa using hi),
    List.set_append_right _ _ (by simp)]
  simp [hi.le]

/-- CB64[0 .. CNT64-1]. -/
def carried64 (e : E64) : List Byte := e.cb.toList.take e.cnt.toNat

theorem carried64_of_cnt_zero {e : E64} (h : e.cnt = 0) : carried64 e = [] := by
  rw [carried64, h]
  rfl

/-- A byte that does not complete a block is carried (rule R141). -/
theorem absorb64_carries {e : E64} (h : e.cnt ≠ 7) (b : Byte) :
    (absorb64 e b).acc = e.acc ∧ carried64 (absorb64 e b) = carried64 e ++ [b] := by
  have hcnt : (e.cnt + 1).toNat = e.cnt.toNat + 1 := by bv_omega
  rw [carried64, absorb64_cnt, hcnt, absorb64, if_neg h]
  exact ⟨rfl, take_set_succ e.cb e.cnt.toNat b e.cnt.isLt⟩

/-- The byte that completes a block mixes the block and leaves nothing carried (rule R141). -/
theorem absorb64_mixes {e : E64} (h : e.cnt = 7) (b : Byte) :
    (absorb64 e b).acc = blk64 e.acc (le 64 (carried64 e ++ [b])) ∧ carried64 (absorb64 e b) = [] := by
  have hblock : (e.cb.set e.cnt.toNat b e.cnt.isLt).toList = carried64 e ++ [b] := by
    rw [carried64, ← take_set_succ e.cb e.cnt.toNat b e.cnt.isLt, h]
    exact (List.take_of_length_le (by simp)).symm
  refine ⟨?_, carried64_of_cnt_zero (by rw [absorb64_cnt, h]; rfl)⟩
  rw [absorb64, if_pos h, hblock]

/-! ### Whole blocks -/

theorem slice_append_of_le {as : List Byte} {i n : Nat} (h : i + n ≤ as.length) (bs : List Byte) :
    slice (as ++ bs) i n = slice as i n := by
  rw [slice, slice, List.drop_append_of_le_length (by omega), List.take_append_of_le_length (by simp; omega)]

/-- The blocks of a byte sequence are not changed by what follows it. -/
theorem foldl_blocks64_append (acc : Word64) (s bs : List Byte) :
    (List.range (s.length / 8)).foldl (fun h j => blk64 h (le 64 (slice (s ++ bs) (8 * j) 8))) acc =
      foldBlocks64 acc s :=
  List.foldl_ext _ _ _ fun h j hj => by
    have := List.mem_range.1 hj
    rw [slice_append_of_le (by omega)]

/-- A byte after a sequence is no new block unless it is the eighth after the last one. -/
theorem foldBlocks64_concat_of_ne {s : List Byte} (h : s.length % 8 ≠ 7) (acc : Word64) (b : Byte) :
    foldBlocks64 acc (s ++ [b]) = foldBlocks64 acc s := by
  rw [foldBlocks64, List.length_append, List.length_singleton, show (s.length + 1) / 8 = s.length / 8 by omega,
    foldl_blocks64_append]

theorem foldBlocks64_concat_of_eq {s : List Byte} (h : s.length % 8 = 7) (acc : Word64) (b : Byte) :
    foldBlocks64 acc (s ++ [b]) =
      blk64 (foldBlocks64 acc s) (le 64 (s.drop (8 * (s.length / 8)) ++ [b])) := by
  have hlast : slice (s ++ [b]) (8 * (s.length / 8)) 8 = s.drop (8 * (s.length / 8)) ++ [b] := by
    rw [slice, List.drop_append_of_le_length (by omega), List.take_of_length_le (by simp; omega)]
  rw [foldBlocks64, List.length_append, List.length_singleton,
    show (s.length + 1) / 8 = s.length / 8 + 1 by omega, List.range_succ, List.foldl_append,
    foldl_blocks64_append, List.foldl_cons, List.foldl_nil, hlast]

/-! ### ABSORB64 -/

theorem absorbAll64_concat (e : E64) (s : List Byte) (b : Byte) :
    absorbAll64 e (s ++ [b]) = absorb64 (absorbAll64 e s) b := List.foldl_concat ..

theorem absorbAll64_cnt_toNat {e : E64} (h : e.cnt = 0) (s : List Byte) :
    (absorbAll64 e s).cnt.toNat = s.length % 8 := by
  simp [h]

/-- From an empty carry buffer, the accumulator takes the whole blocks and the carry buffer the rest. -/
theorem absorbAll64_blocks {e : E64} (h : e.cnt = 0) (s : List Byte) :
    (absorbAll64 e s).acc = foldBlocks64 e.acc s ∧
      carried64 (absorbAll64 e s) = s.drop (8 * (s.length / 8)) := by
  induction s using List.reverseRecOn with
  | nil => exact ⟨rfl, carried64_of_cnt_zero h⟩
  | append_singleton s b ih =>
    obtain ⟨hacc, hcarried⟩ := ih
    have hcnt := absorbAll64_cnt_toNat h s
    rw [absorbAll64_concat]
    by_cases h7 : s.length % 8 = 7
    · obtain ⟨hacc', hcarried'⟩ := absorb64_mixes (BitVec.eq_of_toNat_eq (hcnt.trans h7)) b
      rw [hacc', hcarried', hacc, hcarried, foldBlocks64_concat_of_eq h7]
      exact ⟨rfl, (List.drop_of_length_le (by simp; omega)).symm⟩
    · obtain ⟨hacc', hcarried'⟩ := absorb64_carries (fun hc => h7 (hcnt.symm.trans (congrArg _ hc))) b
      rw [hacc', hcarried', hacc, hcarried, foldBlocks64_concat_of_ne h7, List.length_append,
        List.length_singleton, show (s.length + 1) / 8 = s.length / 8 by omega,
        List.drop_append_of_le_length (by omega)]
      exact ⟨rfl, rfl⟩

/-- Settles O20: one byte at a time, the block it completes is the next of the sequence. -/
theorem absorb64FoldsWholeBlocks : Obligations.Absorb64FoldsWholeBlocks := by
  intro e s hacc hlen hcnt t
  have ht : t = absorbAll64 e s := rfl
  obtain ⟨hblocks, hcarried⟩ := absorbAll64_blocks hcnt s
  rw [ht]
  refine ⟨hacc ▸ hblocks, absorbAll64_cnt_toNat hcnt s, ?_, ?_, absorbAll64_ph e s⟩
  · rw [← absorbAll64_cnt_toNat hcnt s]
    exact hcarried
  · rw [absorbAll64_len, hlen]
    exact BitVec.zero_add _

/-! ### The digest -/

/-- The cascade of FINAL.64 XORs in the carried bytes as one little-endian word (rules R144, R110). -/
theorem tail64_eq (e : E64) :
    tail64 e = if e.cnt = 0 then e.acc else (e.acc ^^^ le 64 (carried64 e)) * c0 := by
  have hcnt := e.cnt.isLt
  rw [tail64, cascade_eq_xor_le _ (by simp; omega), List.drop_zero, carried64]

theorem digest64_finalBody64 (e : E64) : digest64 (finalBody64 e) = be64 (fmix64a (tail64 e)) := rfl

theorem leNat_zeros (n : Nat) : leNat (List.replicate n 0#8) = 0 := by
  induction n with
  | zero => rfl
  | succ n ih => simp [List.replicate_succ, leNat_cons, ih]

@[simp] theorem le_zeros (w n : Nat) : le w (List.replicate n 0#8) = 0#w := by rw [le, leNat_zeros]

/-- Every block of zero bytes is 0, and so is BLK64 of it (rule R149). -/
@[simp] theorem foldBlocks64_zeros (n : Nat) : foldBlocks64 0#64 (List.replicate n 0#8) = 0#64 :=
  List.foldl_fixed' (fun j => by simp [slice]) _

/-- Rule R149: zero bytes leave 0 in the accumulator, and the carried ones XOR nothing in. -/
theorem digest64_zeros {e : E64} (hacc : e.acc = 0) (hcnt : e.cnt = 0) (n : Nat) :
    digest64 (finalBody64 (absorbAll64 e (List.replicate n 0))) = List.replicate 8 0 := by
  obtain ⟨hblocks, hcarried⟩ := absorbAll64_blocks hcnt (List.replicate n 0)
  rw [digest64_finalBody64, tail64_eq, hblocks, hcarried, hacc]
  simp [be64]

end Sys2Proof.Machine
end

section
/-! The finishing commands of E64, the one-shot from a source, and chunk invariance (42_hash64.md rules R144 to R149,
43_hash128.md rules R166, R168). -/

namespace Sys2Proof.Machine

/-! ### FINAL.64 -/

theorem final64_refused {s : State} (h : s.e64.ph ≠ phActive) : exec .final64 s = .next (raise .eState s) := by
  rw [exec_final64, if_neg h]

/-- Settles O15: the cascade as one little-endian word in ACTIVE, the phase check in any other phase. -/
theorem final64GivesItsDigest : Obligations.Final64GivesItsDigest := by
  refine ⟨packetW0_encode .final64, fun s => ?_⟩
  intro tail acc
  have htail : tail64 s.e64 = tail := tail64_eq s.e64
  refine ⟨fun h => ?_, fun h => ?_⟩
  · rw [final64_admitted h, respondOk_eq, digest64_finalBody64, finalBody64, htail]
    rfl
  · rw [final64_refused h, raise_eq]
    rfl

/-! ### HASHS.V -/

/-- Settles O18: as for HASH.V, the source being untouched until UPDATES.V pulls it. -/
theorem hashsIsInitUpdatesFinal : Obligations.HashsIsInitUpdatesFinal := by
  refine fun s bs rest hp hs => ⟨?_, ?_⟩
  · refine ⟨_, _, _, exec_init64 s, updates64_admitted hp hs rfl, final64_admitted (absorbAll64_ph ..),
      finalBody64_ph _, rfl, (hashs64_admitted hp hs).trans ?_⟩
    simp only [respondOk_eq, oneShot64, pulledTo]
  · refine ⟨_, _, _, exec_init128 s, updates128_admitted hp hs rfl, final128_admitted (absorbAll128_ph ..),
      finalBody128_ph _, rfl, (hashs128_admitted hp hs).trans ?_⟩
    simp only [respondOk_eq, oneShot128, pulledTo]

/-! ### HASHALL.V -/

section WholeBuffer

variable {s : State} {bs : List Byte}

theorem bytesAt_of_env (henv : s.env = bufferEnv bs) (h : bs.length < 2 ^ 32) :
    bytesAt s.env.ibuf (0 : Word32).toNat (bufferEnv bs).ibufLen.toNat = bs :=
  henv ▸ bytesAt_bufferEnv h

/-- HASHALL.64 over a buffer of given bytes is the one-shot over them. -/
theorem hashAll64_bufferEnv (henv : s.env = bufferEnv bs) (h : bs.length < 2 ^ 32) :
    exec (hashAll .e64 (BitVec.ofNat 32 bs.length)) s =
      .next (respondOk (digest64 (oneShot64 s.e64 bs)) { s with e64 := oneShot64 s.e64 bs }) := by
  have hall := hash64_admitted (s := s) (o := 0) (l := (bufferEnv bs).ibufLen) (henv ▸ rfl)
    (henv ▸ zero_add_ibufLen_le _)
  rwa [bytesAt_of_env henv h] at hall

/-- HASHALL.128 over a buffer of given bytes is the one-shot over them. -/
theorem hashAll128_bufferEnv (henv : s.env = bufferEnv bs) (h : bs.length < 2 ^ 32) :
    exec (hashAll .e128 (BitVec.ofNat 32 bs.length)) s =
      .next (respondOk (digest128 (oneShot128 s.e128 bs)) { s with e128 := oneShot128 s.e128 bs }) := by
  have hall := hash128_admitted (s := s) (o := 0) (l := (bufferEnv bs).ibufLen) (henv ▸ rfl)
    (henv ▸ zero_add_ibufLen_le _)
  rwa [bytesAt_of_env henv h] at hall

end WholeBuffer

/-! ### Chunk invariance -/

/-- Settles O24: the feeds are one absorption of all their bytes, which is what the one-shot does between its INIT and
its FINAL. -/
theorem chunkedDigestEqualsOneShot : Obligations.ChunkedDigestEqualsOneShot := by
  refine fun fs s hfit hlen => ⟨?_, ?_⟩
  · obtain ⟨t, ht, het, -⟩ := feedAll_feed64 hfit (s := respondOk [] { s with e64 := initBody64 s.e64 }) rfl
    have hph : t.e64.ph = phActive := het ▸ absorbAll64_ph ..
    refine ⟨_, t, _, _, exec_init64 s, ht, final64_admitted hph, hashAll64_bufferEnv rfl hlen, ?_, _, rfl,
      beBytes_length 8 _⟩
    rw [respondOk_resp, respondOk_resp, het]
    rfl
  · obtain ⟨t, ht, het, -⟩ := feedAll_feed128 hfit (s := respondOk [] { s with e128 := initBody128 s.e128 }) rfl
    have hph : t.e128.ph = phActive := het ▸ absorbAll128_ph ..
    refine ⟨_, t, _, _, exec_init128 s, ht, final128_admitted hph, hashAll128_bufferEnv rfl hlen, ?_, _, rfl, ?_⟩
    · rw [respondOk_resp, respondOk_resp, het]
      rfl
    · exact State.digest_length { s with e128 := oneShot128 s.e128 (fedBytes fs) } .e128

/-! ### Zero bytes -/

/-- Settles O27: the digest of zero bytes on the engine, and the same as the response of the one-shot over them. -/
theorem zeroBytesHashToZero64 : Obligations.ZeroBytesHashToZero64 := by
  refine ⟨fun n e hacc hcnt => digest64_zeros hacc hcnt n, fun n s hn => ?_⟩
  have hall := hashAll64_bufferEnv (s := { s with env := bufferEnv (List.replicate n 0) }) rfl
    (by rwa [List.length_replicate])
  rw [List.length_replicate, oneShot64, digest64_zeros rfl rfl n] at hall
  exact ⟨_, hall, rfl⟩

end Sys2Proof.Machine
end

section
/-! LEN64 enters no digest: one command from two states that differ at most in LEN64 (42_hash64.md rule R147). -/

namespace Sys2Proof.Machine

/-! ### E64 but for its length -/

/-- The registers of E64 are the same but for LEN64. -/
structure E64.SameButLen (e e' : E64) : Prop where
  acc : e'.acc = e.acc
  cb : e'.cb = e.cb
  cnt : e'.cnt = e.cnt
  ph : e'.ph = e.ph

section Engine

variable {e e' : E64}

theorem E64.SameButLen.init (h : e.SameButLen e') : (initBody64 e).SameButLen (initBody64 e') :=
  ⟨rfl, h.cb, rfl, rfl⟩

theorem E64.SameButLen.absorb (h : e.SameButLen e') (b : Byte) : (absorb64 e b).SameButLen (absorb64 e' b) := by
  obtain ⟨acc, len, cb, cnt, ph⟩ := e
  obtain ⟨acc', len', cb', cnt', ph'⟩ := e'
  obtain ⟨rfl, rfl, rfl, rfl⟩ := h
  simp only [absorb64]
  split <;> exact ⟨rfl, rfl, rfl, rfl⟩

theorem E64.SameButLen.absorbAll (h : e.SameButLen e') (bs : List Byte) :
    (absorbAll64 e bs).SameButLen (absorbAll64 e' bs) := by
  induction bs generalizing e e' with
  | nil => exact h
  | cons b bs ih => exact ih (h.absorb b)

theorem E64.SameButLen.final (h : e.SameButLen e') : (finalBody64 e).SameButLen (finalBody64 e') := by
  have htail : tail64 e' = tail64 e := by simp only [tail64, h.acc, h.cb, h.cnt]
  constructor
  · simp only [finalBody64, htail]
  · rw [finalBody64_cb, finalBody64_cb, h.cb]
  · rw [finalBody64_cnt, finalBody64_cnt, h.cnt]
  · rw [finalBody64_ph, finalBody64_ph]

theorem E64.SameButLen.oneShot (h : e.SameButLen e') (bs : List Byte) :
    (oneShot64 e bs).SameButLen (oneShot64 e' bs) := (h.init.absorbAll bs).final

theorem E64.SameButLen.digest_eq (h : e.SameButLen e') : digest64 e' = digest64 e := by
  rw [digest64, digest64, h.acc]

end Engine

/-! ### States but for LEN64 -/

/-- The second state is the first but for LEN64. -/
inductive SameButLen64 (s : State) : State → Prop
  | intro (e : E64) (he : s.e64.SameButLen e) : SameButLen64 s { s with e64 := e }

section Results

variable {s u t v : State}

theorem SameButLen64.env_eq (h : SameButLen64 s u) : u.env = s.env := by
  obtain ⟨e, he⟩ := h
  rfl

theorem SameButLen64.refused (h : SameButLen64 s u) (c : RespCode) : SameButLen64 (raise c s) (raise c u) := by
  obtain ⟨e, he⟩ := h
  exact ⟨e, he⟩

theorem SameButLen64.pulled (h : SameButLen64 s u) (rest : List Pull) :
    SameButLen64 (pulledTo rest s) (pulledTo rest u) := by
  obtain ⟨e, he⟩ := h
  exact ⟨e, he⟩

/-- An operation on E32. -/
theorem SameButLen64.respond32 (h : SameButLen64 s u) (e : E32) (d : List Byte) :
    SameButLen64 (respondOk d { s with e32 := e }) (respondOk d { u with e32 := e }) := by
  obtain ⟨e64, he⟩ := h
  exact ⟨e64, he⟩

/-- An operation on E128. -/
theorem SameButLen64.respond128 (h : SameButLen64 s u) (e : E128) (d : List Byte) :
    SameButLen64 (respondOk d { s with e128 := e }) (respondOk d { u with e128 := e }) := by
  obtain ⟨e64, he⟩ := h
  exact ⟨e64, he⟩

/-- An operation on E64 that answers no digest. -/
theorem SameButLen64.respond64 (h : SameButLen64 s u) {e e' : E64} (he : e.SameButLen e') (d : List Byte) :
    SameButLen64 (respondOk d { s with e64 := e }) (respondOk d { u with e64 := e' }) := by
  obtain ⟨_, _⟩ := h
  exact ⟨e', he⟩

/-- An operation on E64 that answers its digest. -/
theorem SameButLen64.finish64 (h : SameButLen64 s u) {e e' : E64} (he : e.SameButLen e') :
    SameButLen64 (respondOk (digest64 e) { s with e64 := e }) (respondOk (digest64 e') { u with e64 := e' }) := by
  rw [he.digest_eq]
  exact h.respond64 he _

/-! ### The checks and the stream loops, in the shape of the equations of exec -/

theorem SameButLen64.of_buffer {o l : Word32} (h : SameButLen64 s u) (ht : SameButLen64 t v) :
    SameButLen64
      (if s.env.ibufPresent = false then raise .eArg s
        else if s.env.ibufLen.toNat < o.toNat + l.toNat then raise .eRange s else t)
      (if u.env.ibufPresent = false then raise .eArg u
        else if u.env.ibufLen.toNat < o.toNat + l.toNat then raise .eRange u else v) := by
  rw [h.env_eq]
  split_ifs
  · exact h.refused .eArg
  · exact h.refused .eRange
  · exact ht

theorem SameButLen64.of_phase {ph ph' : BitVec 2} (h : SameButLen64 s u) (hph : ph' = ph) (ht : SameButLen64 t v) :
    SameButLen64 (if ph = phActive then t else raise .eState s)
      (if ph' = phActive then v else raise .eState u) := by
  rw [hph]
  split_ifs
  · exact ht
  · exact h.refused .eState

theorem SameButLen64.of_source (h : SameButLen64 s u) (ht : SameButLen64 t v) :
    SameButLen64 (if s.env.srcPresent = false then raise .eArg s else t)
      (if u.env.srcPresent = false then raise .eArg u else v) := by
  rw [h.env_eq]
  split_ifs
  · exact h.refused .eArg
  · exact ht

/-- The loop of E64 ends alike. That an engine it loses takes the same free values is the model's (assumption log 3);
the obligation claims nothing of them. -/
theorem SameButLen64.of_stream64 (h : SameButLen64 s u) {e e' : E64} (he : e.SameButLen e')
    {fin : E64 → State → State}
    (hfin : ∀ {e e' s u}, e.SameButLen e' → SameButLen64 s u → SameButLen64 (fin e s) (fin e' u)) :
    SameButLen64 (stream64 e fin s) (stream64 e' fin u) := by
  obtain ⟨bs, rest, hs⟩ | ⟨bs, rest, hs⟩ | ⟨bs, hs⟩ := source_cases s.env.src
  · rw [stream64_eof hs, stream64_eof (h.env_eq ▸ hs)]
    exact hfin (he.absorbAll bs) (h.pulled rest)
  · rw [stream64_ioerr hs, stream64_ioerr (h.env_eq ▸ hs)]
    obtain ⟨_, _⟩ := h
    exact ⟨_, rfl, rfl, rfl, rfl⟩
  · rw [stream64_never hs, stream64_never (h.env_eq ▸ hs)]
    obtain ⟨_, _⟩ := h
    exact ⟨_, rfl, rfl, rfl, rfl⟩

/-- The loop of E128 ends alike. -/
theorem SameButLen64.of_stream128 (h : SameButLen64 s u) (e : E128) {fin : E128 → State → State}
    (hfin : ∀ {e s u}, SameButLen64 s u → SameButLen64 (fin e s) (fin e u)) :
    SameButLen64 (stream128 e fin s) (stream128 e fin u) := by
  obtain ⟨bs, rest, hs⟩ | ⟨bs, rest, hs⟩ | ⟨bs, hs⟩ := source_cases s.env.src
  · rw [stream128_eof hs, stream128_eof (h.env_eq ▸ hs)]
    exact hfin (h.pulled rest)
  · rw [stream128_ioerr hs, stream128_ioerr (h.env_eq ▸ hs)]
    obtain ⟨e64, he⟩ := h
    exact ⟨e64, he⟩
  · rw [stream128_never hs, stream128_never (h.env_eq ▸ hs)]
    obtain ⟨e64, he⟩ := h
    exact ⟨e64, he⟩

end Results

/-! ### Every command -/

/-- One command from two states that differ at most in LEN64 leaves two such states: what a command of E32 or E128
writes is the same in both, and the operations of E64 carry the difference along. -/
theorem exec_sameButLen64 (i : Instr) {s u : State} (h : SameButLen64 s u) :
    ∃ t v, exec i s = .next t ∧ exec i u = .next v ∧ SameButLen64 t v := by
  obtain ⟨e, he⟩ := h
  have h : SameButLen64 s { s with e64 := e } := ⟨e, he⟩
  cases i with
  | init32 => exact ⟨_, _, exec_init32 _, exec_init32 _, h.respond32 _ []⟩
  | init64 => exact ⟨_, _, exec_init64 _, exec_init64 _, h.respond64 he.init []⟩
  | init128 => exact ⟨_, _, exec_init128 _, exec_init128 _, h.respond128 _ []⟩
  | update32 o l =>
    exact ⟨_, _, exec_update32 o l _, exec_update32 o l _, .of_buffer h (.of_phase h rfl (h.respond32 _ _))⟩
  | update64 o l =>
    exact ⟨_, _, exec_update64 o l _, exec_update64 o l _,
      .of_buffer h (.of_phase h he.ph (h.respond64 (he.absorbAll _) []))⟩
  | update128 o l =>
    exact ⟨_, _, exec_update128 o l _, exec_update128 o l _, .of_buffer h (.of_phase h rfl (h.respond128 _ _))⟩
  | updates64 =>
    exact ⟨_, _, exec_updates64 _, exec_updates64 _,
      .of_source h (.of_phase h he.ph (.of_stream64 h he fun he h => h.respond64 he []))⟩
  | updates128 =>
    exact ⟨_, _, exec_updates128 _, exec_updates128 _,
      .of_source h (.of_phase h rfl (.of_stream128 h _ fun h => h.respond128 _ _))⟩
  | final32 => exact ⟨_, _, exec_final32 _, exec_final32 _, .of_phase h rfl (h.respond32 _ _)⟩
  | final64 => exact ⟨_, _, exec_final64 _, exec_final64 _, .of_phase h he.ph (h.finish64 he.final)⟩
  | final128 => exact ⟨_, _, exec_final128 _, exec_final128 _, .of_phase h rfl (h.respond128 _ _)⟩
  | hash32 o l => exact ⟨_, _, exec_hash32 o l _, exec_hash32 o l _, .of_buffer h (h.respond32 _ _)⟩
  | hash64 o l =>
    exact ⟨_, _, exec_hash64 o l _, exec_hash64 o l _, .of_buffer h (h.finish64 (he.oneShot _))⟩
  | hash128 o l => exact ⟨_, _, exec_hash128 o l _, exec_hash128 o l _, .of_buffer h (h.respond128 _ _)⟩
  | hashs64 =>
    exact ⟨_, _, exec_hashs64 _, exec_hashs64 _,
      .of_source h (.of_stream64 h he.init fun he h => h.finish64 he.final)⟩
  | hashs128 =>
    exact ⟨_, _, exec_hashs128 _, exec_hashs128 _, .of_source h (.of_stream128 h _ fun h => h.respond128 _ _)⟩

/-- Settles O28: each command keeps the two states the same but for LEN64, which no response shows. -/
theorem length64EntersNoDigest : Obligations.Length64EntersNoDigest := by
  intro i s t len h lost
  have start : SameButLen64 s { s with e64 := { s.e64 with len := len } } := ⟨_, rfl, rfl, rfl, rfl⟩
  obtain ⟨t', u, ht', hu, hsame⟩ := exec_sameButLen64 i start
  obtain rfl : t = t' := by injection h.symm.trans ht'
  obtain ⟨e, he⟩ := hsame
  exact ⟨_, hu, rfl, rfl, rfl, rfl, fun _ => ⟨he.ph, rfl⟩, fun _ => ⟨he.acc, he.cb, he.cnt, he.ph⟩, fun _ => rfl⟩

end Sys2Proof.Machine
end

section
/-! The absorb procedure of E128 block by block, and its digest (43_hash128.md rules R161, R164). -/

namespace Sys2Proof.Machine

/-! ### One byte -/

/-- BLK128 of both lanes with the two little-endian words of a block (rules R107, R161). -/
def mixBlock128 (lanes : Word64 × Word64) (block : List Byte) : Word64 × Word64 :=
  blk128 lanes.1 lanes.2 (le 64 (block.take 8)) (le 64 (block.drop 8))

/-- CB128[0 .. CNT128-1]. -/
def carried128 (e : E128) : List Byte := e.cb.toList.take e.cnt.toNat

theorem carried128_of_cnt_zero {e : E128} (h : e.cnt = 0) : carried128 e = [] := by
  rw [carried128, h]
  rfl

/-- A byte that does not complete a block is carried (rule R161). -/
theorem absorb128_carries {e : E128} (h : e.cnt ≠ 15) (b : Byte) :
    ((absorb128 e b).accA, (absorb128 e b).accB) = (e.accA, e.accB) ∧
      carried128 (absorb128 e b) = carried128 e ++ [b] := by
  have hcnt : (e.cnt + 1).toNat = e.cnt.toNat + 1 := by bv_omega
  rw [carried128, absorb128_cnt, hcnt, absorb128, if_neg h]
  exact ⟨rfl, take_set_succ e.cb e.cnt.toNat b e.cnt.isLt⟩

/-- The byte that completes a block mixes the block and leaves nothing carried (rule R161). -/
theorem absorb128_mixes {e : E128} (h : e.cnt = 15) (b : Byte) :
    ((absorb128 e b).accA, (absorb128 e b).accB) = mixBlock128 (e.accA, e.accB) (carried128 e ++ [b]) ∧
      carried128 (absorb128 e b) = [] := by
  have hblock : (e.cb.set e.cnt.toNat b e.cnt.isLt).toList = carried128 e ++ [b] := by
    rw [carried128, ← take_set_succ e.cb e.cnt.toNat b e.cnt.isLt, h]
    exact (List.take_of_length_le (by simp)).symm
  refine ⟨?_, carried128_of_cnt_zero (by rw [absorb128_cnt, h]; rfl)⟩
  rw [absorb128, if_pos h, hblock]
  rfl

/-! ### Whole blocks -/

/-- The two words of the fold are the halves of one block of 16 bytes. -/
theorem foldBlocks128_eq (lanes : Word64 × Word64) (s : List Byte) : foldBlocks128 lanes s =
    (List.range (s.length / 16)).foldl (fun h j => mixBlock128 h (slice s (16 * j) 16)) lanes := by
  have low (j : Nat) : (slice s (16 * j) 16).take 8 = slice s (16 * j) 8 := List.take_take ..
  have high (j : Nat) : (slice s (16 * j) 16).drop 8 = slice s (16 * j + 8) 8 := by
    rw [slice, slice, List.drop_take, List.drop_drop]
  simp only [mixBlock128, low, high]
  rfl

/-- The blocks of a byte sequence are not changed by what follows it. -/
theorem foldl_blocks128_append (lanes : Word64 × Word64) (s bs : List Byte) :
    (List.range (s.length / 16)).foldl (fun h j => mixBlock128 h (slice (s ++ bs) (16 * j) 16)) lanes =
      foldBlocks128 lanes s := by
  rw [foldBlocks128_eq]
  refine List.foldl_ext _ _ _ fun h j hj => ?_
  have := List.mem_range.1 hj
  rw [slice_append_of_le (by omega)]

/-- A byte after a sequence is no new block unless it is the sixteenth after the last one. -/
theorem foldBlocks128_concat_of_ne {s : List Byte} (h : s.length % 16 ≠ 15) (lanes : Word64 × Word64) (b : Byte) :
    foldBlocks128 lanes (s ++ [b]) = foldBlocks128 lanes s := by
  rw [foldBlocks128_eq, List.length_append, List.length_singleton,
    show (s.length + 1) / 16 = s.length / 16 by omega, foldl_blocks128_append]

theorem foldBlocks128_concat_of_eq {s : List Byte} (h : s.length % 16 = 15) (lanes : Word64 × Word64) (b : Byte) :
    foldBlocks128 lanes (s ++ [b]) =
      mixBlock128 (foldBlocks128 lanes s) (s.drop (16 * (s.length / 16)) ++ [b]) := by
  have hlast : slice (s ++ [b]) (16 * (s.length / 16)) 16 = s.drop (16 * (s.length / 16)) ++ [b] := by
    rw [slice, List.drop_append_of_le_length (by omega), List.take_of_length_le (by simp; omega)]
  rw [foldBlocks128_eq, List.length_append, List.length_singleton,
    show (s.length + 1) / 16 = s.length / 16 + 1 by omega, List.range_succ, List.foldl_append,
    foldl_blocks128_append, List.foldl_cons, List.foldl_nil, hlast]

/-! ### ABSORB128 -/

theorem absorbAll128_concat (e : E128) (s : List Byte) (b : Byte) :
    absorbAll128 e (s ++ [b]) = absorb128 (absorbAll128 e s) b := List.foldl_concat ..

theorem absorbAll128_cnt_toNat {e : E128} (h : e.cnt = 0) (s : List Byte) :
    (absorbAll128 e s).cnt.toNat = s.length % 16 := by
  simp [h]

/-- From an empty carry buffer, the lanes take the whole blocks and the carry buffer the rest. -/
theorem absorbAll128_blocks {e : E128} (h : e.cnt = 0) (s : List Byte) :
    ((absorbAll128 e s).accA, (absorbAll128 e s).accB) = foldBlocks128 (e.accA, e.accB) s ∧
      carried128 (absorbAll128 e s) = s.drop (16 * (s.length / 16)) := by
  induction s using List.reverseRecOn with
  | nil => exact ⟨rfl, carried128_of_cnt_zero h⟩
  | append_singleton s b ih =>
    obtain ⟨hlanes, hcarried⟩ := ih
    have hcnt := absorbAll128_cnt_toNat h s
    rw [absorbAll128_concat]
    by_cases h15 : s.length % 16 = 15
    · obtain ⟨hlanes', hcarried'⟩ := absorb128_mixes (BitVec.eq_of_toNat_eq (hcnt.trans h15)) b
      rw [hlanes', hcarried', hlanes, hcarried, foldBlocks128_concat_of_eq h15]
      exact ⟨rfl, (List.drop_of_length_le (by simp; omega)).symm⟩
    · obtain ⟨hlanes', hcarried'⟩ := absorb128_carries (fun hc => h15 (hcnt.symm.trans (congrArg _ hc))) b
      rw [hlanes', hcarried', hlanes, hcarried, foldBlocks128_concat_of_ne h15, List.length_append,
        List.length_singleton, show (s.length + 1) / 16 = s.length / 16 by omega,
        List.drop_append_of_le_length (by omega)]
      exact ⟨rfl, rfl⟩

/-- Settles O21: one byte at a time, the block it completes is the next of the sequence. -/
theorem absorb128FoldsWholeBlocks : Obligations.Absorb128FoldsWholeBlocks := by
  intro e s haccA haccB hlen hcnt t
  have ht : t = absorbAll128 e s := rfl
  obtain ⟨hblocks, hcarried⟩ := absorbAll128_blocks hcnt s
  rw [haccA, haccB] at hblocks
  rw [ht]
  refine ⟨hblocks, absorbAll128_cnt_toNat hcnt s, ?_, ?_, absorbAll128_ph e s⟩
  · rw [← absorbAll128_cnt_toNat hcnt s]
    exact hcarried
  · rw [absorbAll128_len, hlen]
    exact BitVec.zero_add _

/-! ### FINAL.128 -/

/-- A lane step stages its bytes in a word of its own, which starts at 0 (rules R164, R110). -/
theorem cascade_zero_eq_le {cb : List Byte} {base n : Nat} (hn : base + n ≤ cb.length) :
    cascade cb base n 0 = le 64 ((cb.drop base).take n) :=
  (cascade_eq_xor_le 0 hn).trans BitVec.zero_xor

/-- The k2 step, from 9 bytes on: the carried bytes above the eighth as one little-endian word (rule R164). -/
theorem tailB_eq (e : E128) : tailB e =
    if 9 ≤ e.cnt.toNat then e.accB ^^^ k2mix (le 64 ((carried128 e).drop 8)) else e.accB := by
  have hcnt := e.cnt.isLt
  rw [tailB, cascade_zero_eq_le (by simp; omega), carried128, List.drop_take]

/-- The k1 step, from 1 byte on: the first eight carried bytes at most as one little-endian word (rule R164). -/
theorem tailA_eq (e : E128) : tailA e =
    if 1 ≤ e.cnt.toNat then e.accA ^^^ k1mix (le 64 (e.cb.toList.take (min e.cnt.toNat 8))) else e.accA := by
  rw [tailA, cascade_zero_eq_le (by simp), List.drop_zero]

theorem digest128_finalBody128 (e : E128) : digest128 (finalBody128 e) =
    be64 (finalLanes (tailA e) (tailB e) e.len).1 ++ be64 (finalLanes (tailA e) (tailB e) e.len).2 := rfl

theorem final128_refused {s : State} (h : s.e128.ph ≠ phActive) : exec .final128 s = .next (raise .eState s) := by
  rw [exec_final128, if_neg h]

/-- Settles O16: the cascades as little-endian words in ACTIVE, the phase check in any other phase. -/
theorem final128GivesItsDigest : Obligations.Final128GivesItsDigest := by
  refine ⟨packetW0_encode .final128, fun s => ?_⟩
  intro n cb tb ta a1 b1 a2 b2
  have htb : tailB s.e128 = tb := tailB_eq s.e128
  have hta : tailA s.e128 = ta := tailA_eq s.e128
  have hlanes : finalLanes ta tb s.e128.len = (a2, b2) := rfl
  refine ⟨fun h => ?_, fun h => ?_⟩
  · rw [final128_admitted h, respondOk_eq, digest128_finalBody128, finalBody128, htb, hta, hlanes]
    rfl
  · rw [final128_refused h, raise_eq]
    rfl

end Sys2Proof.Machine
end

section
/-! A command that a check refuses reports its error and does nothing else (60_exceptions.md rules R182, R183, R185,
R188), and a source that fails costs its engine (rule R184). -/

namespace Sys2Proof.Machine

/-! ### The checks of UPDATE.V, HASH.V and FINAL.V, said for every engine -/

theorem exec_updateCmd (v : Engine) (o l : Word32) (s : State) :
    ∃ t, exec (updateCmd v o l) s = .next (if s.env.ibufPresent = false then raise .eArg s
      else if s.env.ibufLen.toNat < o.toNat + l.toNat then raise .eRange s
      else if s.phase v = phActive then t else raise .eState s) := by
  cases v with
  | e32 => exact ⟨_, exec_update32 o l s⟩
  | e64 => exact ⟨_, exec_update64 o l s⟩
  | e128 => exact ⟨_, exec_update128 o l s⟩

theorem exec_hashCmd (v : Engine) (o l : Word32) (s : State) :
    ∃ t, exec (hashCmd v o l) s = .next (if s.env.ibufPresent = false then raise .eArg s
      else if s.env.ibufLen.toNat < o.toNat + l.toNat then raise .eRange s else t) := by
  cases v with
  | e32 => exact ⟨_, exec_hash32 o l s⟩
  | e64 => exact ⟨_, exec_hash64 o l s⟩
  | e128 => exact ⟨_, exec_hash128 o l s⟩

section Refused

variable {v : Engine} {s : State} {o l : Word32}

theorem updateCmd_absent (hp : s.env.ibufPresent = false) : exec (updateCmd v o l) s = .next (raise .eArg s) := by
  obtain ⟨t, ht⟩ := exec_updateCmd v o l s
  rw [ht, if_pos hp]

theorem hashCmd_absent (hp : s.env.ibufPresent = false) : exec (hashCmd v o l) s = .next (raise .eArg s) := by
  obtain ⟨t, ht⟩ := exec_hashCmd v o l s
  rw [ht, if_pos hp]

theorem hashCmd_outside (hp : s.env.ibufPresent = true) (hr : s.env.ibufLen.toNat < o.toNat + l.toNat) :
    exec (hashCmd v o l) s = .next (raise .eRange s) := by
  obtain ⟨t, ht⟩ := exec_hashCmd v o l s
  rw [ht, if_neg (by simp [hp]), if_pos hr]

theorem updateCmd_wrongPhase (hp : s.env.ibufPresent = true) (hr : o.toNat + l.toNat ≤ s.env.ibufLen.toNat)
    (hph : s.phase v ≠ phActive) : exec (updateCmd v o l) s = .next (raise .eState s) := by
  obtain ⟨t, ht⟩ := exec_updateCmd v o l s
  rw [ht, if_neg (by simp [hp]), if_neg (Nat.not_lt.2 hr), if_neg hph]

theorem finalCmd_wrongPhase (hph : s.phase v ≠ phActive) : exec (finalCmd v) s = .next (raise .eState s) := by
  cases v with
  | e32 => exact final32_refused hph
  | e64 => exact final64_refused hph
  | e128 => exact final128_refused hph

theorem updates64_wrongPhase (hp : s.env.srcPresent = true) (hph : s.e64.ph ≠ phActive) :
    exec .updates64 s = .next (raise .eState s) := by
  rw [exec_updates64, if_neg (by simp [hp]), if_neg hph]

theorem updates128_wrongPhase (hp : s.env.srcPresent = true) (hph : s.e128.ph ≠ phActive) :
    exec .updates128 s = .next (raise .eState s) := by
  rw [exec_updates128, if_neg (by simp [hp]), if_neg hph]

end Refused

/-! ### Errors before execution -/

/-- Settles O36: of the results of a command, only a refusal responds neither OK nor E_IO. -/
theorem errorsArePrecise : Obligations.ErrorsArePrecise := by
  intro i s t r h hr hok hio
  cases exec_cases h with
  | refused c =>
    cases hr
    exact ⟨raise_eq c s, rfl⟩
  | done32 | done64 | done128 =>
    cases hr
    exact absurd rfl hok
  | ioError64 | ioError128 =>
    cases hr
    exact absurd rfl hio
  | hung64 | hung128 => cases hr

/-- Settles O31: the check of the input comes first. -/
theorem absentInputIsArgError : Obligations.AbsentInputIsArgError := by
  intro s o l t
  have ht : raise .eArg s = t := raise_eq .eArg s
  rw [← ht]
  refine ⟨fun hp v => ⟨updateCmd_absent hp, hashCmd_absent hp⟩, fun hp => ⟨?_, ?_, ?_, ?_⟩⟩
  · rw [exec_updates64, if_pos hp]
  · rw [exec_updates128, if_pos hp]
  · rw [exec_hashs64, if_pos hp]
  · rw [exec_hashs128, if_pos hp]

/-- Settles O32: the range is checked before the phase. -/
theorem rangeErrorChangesNothingElse : Obligations.RangeErrorChangesNothingElse := by
  intro v s o l hp hr t
  have ht : raise .eRange s = t := raise_eq .eRange s
  rw [← ht]
  exact ⟨updateCmd_outside hp hr, hashCmd_outside hp hr⟩

/-- Settles O33: with its input admitted, a command reaches the phase check, which precedes every pull. -/
theorem wrongPhaseIsStateError : Obligations.WrongPhaseIsStateError := by
  intro s o l t
  have ht : raise .eState s = t := raise_eq .eState s
  rw [← ht]
  exact ⟨fun v hph => ⟨finalCmd_wrongPhase hph, fun hp hr => updateCmd_wrongPhase hp hr hph⟩,
    fun hp => ⟨updates64_wrongPhase hp, updates128_wrongPhase hp⟩⟩

/-! ### A source that fails -/

section Failing

variable {s : State} {bs : List Byte} {rest : List Pull}

theorem updates64_ioerr (hp : s.env.srcPresent = true) (hs : s.env.src = bs.map Pull.byte ++ .ioerr :: rest)
    (h : s.e64.ph = phActive) :
    exec .updates64 s = .next (raise .eIo (discard64 phIdle (pulledTo rest s))) := by
  rw [exec_updates64, if_neg (by simp [hp]), if_pos h, stream64_ioerr hs]

theorem updates128_ioerr (hp : s.env.srcPresent = true) (hs : s.env.src = bs.map Pull.byte ++ .ioerr :: rest)
    (h : s.e128.ph = phActive) :
    exec .updates128 s = .next (raise .eIo (discard128 phIdle (pulledTo rest s))) := by
  rw [exec_updates128, if_neg (by simp [hp]), if_pos h, stream128_ioerr hs]

theorem hashs64_ioerr (hp : s.env.srcPresent = true) (hs : s.env.src = bs.map Pull.byte ++ .ioerr :: rest) :
    exec .hashs64 s = .next (raise .eIo (discard64 phIdle (pulledTo rest s))) := by
  rw [exec_hashs64, if_neg (by simp [hp]), stream64_ioerr hs]

theorem hashs128_ioerr (hp : s.env.srcPresent = true) (hs : s.env.src = bs.map Pull.byte ++ .ioerr :: rest) :
    exec .hashs128 s = .next (raise .eIo (discard128 phIdle (pulledTo rest s))) := by
  rw [exec_hashs128, if_neg (by simp [hp]), stream128_ioerr hs]

end Failing

/-- Settles O34: both stream forms of an engine lose it to E_IO in the same way. -/
theorem ioErrorDiscardsItsEngine : Obligations.IoErrorDiscardsItsEngine := by
  intro s bs rest hp hs reported
  have reported64 : reported (raise .eIo (discard64 phIdle (pulledTo rest s))) :=
    ⟨rfl, rfl, rfl, rfl, rfl, rfl, rfl, rfl, rfl⟩
  have reported128 : reported (raise .eIo (discard128 phIdle (pulledTo rest s))) :=
    ⟨rfl, rfl, rfl, rfl, rfl, rfl, rfl, rfl, rfl⟩
  exact ⟨⟨_, hashs64_ioerr hp hs, rfl, rfl, reported64⟩, ⟨_, hashs128_ioerr hp hs, rfl, rfl, reported128⟩,
    fun h => ⟨_, updates64_ioerr hp hs h, rfl, rfl, reported64⟩,
    fun h => ⟨_, updates128_ioerr hp hs h, rfl, rfl, reported128⟩⟩

end Sys2Proof.Machine
end

section
/-! The code a command reports, by the first check that fails (60_exceptions.md rule R187). -/

namespace Sys2Proof.Machine

/-! ### The code of a response -/

/-- If the state holds a response, its code satisfies `P`. -/
def State.Answers (t : State) (P : RespCode → Prop) : Prop := ∀ r, t.resp = some r → P r.code

theorem respondOk_answers {d : List Byte} {s : State} : (respondOk d s).Answers (· = .ok) := by
  intro r hr
  cases hr
  rfl

theorem raise_answers {c : RespCode} {s : State} : (raise c s).Answers (· = c) := by
  intro r hr
  cases hr
  rfl

theorem hang_answers {s : State} {P : RespCode → Prop} : (hang s).Answers P := nofun

section Checks

variable {s t u : State} {P Q : RespCode → Prop} {c d : RespCode}

theorem State.Answers.mono (h : t.Answers P) (hPQ : ∀ c, P c → Q c) : t.Answers Q := fun r hr => hPQ _ (h r hr)

theorem State.Answers.ite {p : Prop} [Decidable p] (ht : t.Answers P) (hu : u.Answers Q) :
    (if p then t else u).Answers fun c => if p then P c else Q c := by
  split_ifs
  · exact ht
  · exact hu

theorem State.Answers.ite_eq {p : Prop} [Decidable p] (ht : t.Answers (· = c)) (hu : u.Answers (· = d)) :
    (if p then t else u).Answers (· = if p then c else d) := by
  split_ifs
  · exact ht
  · exact hu

/-! ### The checks, in the shape of the equations of exec -/

theorem State.Answers.of_buffer {o l : Word32} (ht : t.Answers (· = c)) :
    (if s.env.ibufPresent = false then raise .eArg s
      else if s.env.ibufLen.toNat < o.toNat + l.toNat then raise .eRange s else t).Answers
      (· = if s.env.ibufPresent = false then .eArg
        else if s.env.ibufLen.toNat < o.toNat + l.toNat then .eRange else c) :=
  .ite_eq raise_answers (.ite_eq raise_answers ht)

theorem State.Answers.of_phase {ph : BitVec 2} (ht : t.Answers (· = c)) :
    (if ph = phActive then t else raise .eState s).Answers (· = if ph = phActive then c else .eState) :=
  .ite_eq ht raise_answers

end Checks

/-- A source that fails ends the loop with E_IO, and one that never answers leaves no response. -/
theorem State.Answers.of_stream64 {s : State} {e : E64} {fin : E64 → State → State}
    (hfin : ∀ e t, (fin e t).Answers (· = .ok)) : (stream64 e fin s).Answers fun c => c = .ok ∨ c = .eIo := by
  obtain ⟨bs, rest, h⟩ | ⟨rest, h⟩ | h := stream64_cases e fin s
  · exact h ▸ (hfin _ _).mono fun _ => .inl
  · exact h ▸ raise_answers.mono fun _ => .inr
  · exact h ▸ hang_answers

/-- As for E64. -/
theorem State.Answers.of_stream128 {s : State} {e : E128} {fin : E128 → State → State}
    (hfin : ∀ e t, (fin e t).Answers (· = .ok)) : (stream128 e fin s).Answers fun c => c = .ok ∨ c = .eIo := by
  obtain ⟨bs, rest, h⟩ | ⟨rest, h⟩ | h := stream128_cases e fin s
  · exact h ▸ (hfin _ _).mono fun _ => .inl
  · exact h ▸ raise_answers.mono fun _ => .inr
  · exact h ▸ hang_answers

/-! ### Every command -/

/-- The code of a command, from the equation that says its next state. -/
theorem code_of_exec {i : Instr} {s t u : State} {r : Response} {P : RespCode → Prop} (heq : exec i s = .next u)
    (hu : u.Answers P) (h : exec i s = .next t) (hr : t.resp = some r) : P r.code := by
  obtain rfl : u = t := by injection heq.symm.trans h
  exact hu r hr

/-- Settles O37: the code follows the checks that each command's equation lists, and no packet that does not decode
reaches one of them. -/
theorem oneCodeInCheckOrder : Obligations.OneCodeInCheckOrder := by
  refine ⟨fun s p env rest hs hh hd => ?_, fun i s t r h hr => ?_⟩
  · exact ⟨_, (step_command hs hh).trans (runPacket_of_illegal (not_exists.2 hd) _), rfl⟩
  cases i with
  | init32 => exact code_of_exec (exec_init32 s) respondOk_answers h hr
  | init64 => exact code_of_exec (exec_init64 s) respondOk_answers h hr
  | init128 => exact code_of_exec (exec_init128 s) respondOk_answers h hr
  | update32 o l => exact code_of_exec (exec_update32 o l s) (.of_buffer (.of_phase respondOk_answers)) h hr
  | update64 o l => exact code_of_exec (exec_update64 o l s) (.of_buffer (.of_phase respondOk_answers)) h hr
  | update128 o l => exact code_of_exec (exec_update128 o l s) (.of_buffer (.of_phase respondOk_answers)) h hr
  | updates64 =>
    exact code_of_exec (exec_updates64 s) (.ite raise_answers
      (.ite (.of_stream64 fun _ _ => respondOk_answers) raise_answers)) h hr
  | updates128 =>
    exact code_of_exec (exec_updates128 s) (.ite raise_answers
      (.ite (.of_stream128 fun _ _ => respondOk_answers) raise_answers)) h hr
  | final32 => exact code_of_exec (exec_final32 s) (.of_phase respondOk_answers) h hr
  | final64 => exact code_of_exec (exec_final64 s) (.of_phase respondOk_answers) h hr
  | final128 => exact code_of_exec (exec_final128 s) (.of_phase respondOk_answers) h hr
  | hash32 o l => exact code_of_exec (exec_hash32 o l s) (.of_buffer respondOk_answers) h hr
  | hash64 o l => exact code_of_exec (exec_hash64 o l s) (.of_buffer respondOk_answers) h hr
  | hash128 o l => exact code_of_exec (exec_hash128 o l s) (.of_buffer respondOk_answers) h hr
  | hashs64 =>
    exact code_of_exec (exec_hashs64 s) (.ite raise_answers
      (.of_stream64 fun _ _ => respondOk_answers)) h hr
  | hashs128 =>
    exact code_of_exec (exec_hashs128 s) (.ite raise_answers
      (.of_stream128 fun _ _ => respondOk_answers)) h hr

end Sys2Proof.Machine
end

section
/-! Reset, and what a host may issue right after it (70_reset_and_hazards.md rules R210, R212). -/

namespace Sys2Proof.Machine

/-! ### The state after reset -/

/-- The inputs of the first command play no part in the phases that reset leaves. -/
theorem reset_phase (env : Env) (v : Engine) : State.phase { State.reset with env := env } v = phIdle := by
  cases v <;> rfl

theorem reset_flagsOk : State.reset.FlagsOk where
  rsp_le := Nat.zero_le 5
  errseen_zero := rfl
  errseen_rsp hrsp := absurd rfl hrsp
  rsp_resp := nofun
  resp_hung := nofun

theorem reset_countsOk : State.reset.CountsOk where
  e64 hph := absurd rfl hph
  e128 hph := absurd rfl hph

/-- Settles O48: the phases and the two status registers, in State.reset and in what a reset event leaves. -/
theorem resetLeavesIdleAndClear : Obligations.ResetLeavesIdleAndClear := by
  refine ⟨⟨rfl, rfl, rfl, rfl, rfl⟩, fun s rest hs => ⟨_, step_reset hs, ?_⟩⟩
  exact ⟨resetBlock_phase _ .e32, resetBlock_phase _ .e64, resetBlock_phase _ .e128, resetBlock_rsp _,
    resetBlock_errseen _⟩

/-- Settles O51: no engine is live, and no command has responded. -/
theorem resetHasStatusRegisters : Obligations.ResetHasStatusRegisters := by
  have hph (v : Engine) : State.reset.phase v ≠ 3 := by
    rw [show State.reset.phase v = phIdle from reset_phase Env.absent v]
    decide
  exact (statusOk_iff _).2 ⟨hph, reset_flagsOk⟩

/-- Settles O53: an engine that is not live has no count to keep. -/
theorem resetHasCarryCounts : Obligations.ResetHasCarryCounts :=
  (carryOk_iff _).2 fun _ => reset_countsOk

/-! ### The first command -/

section FirstCommand

variable {s : State}

/-- An admitted HASH.V ends with OK in DONE, with the bytes of its accumulators as the digest. -/
theorem hashCmd_done (v : Engine) {o l : Word32} (hp : s.env.ibufPresent = true)
    (hr : o.toNat + l.toNat ≤ s.env.ibufLen.toNat) :
    NextSatisfies (exec (hashCmd v o l) s)
      fun t => t.phase v = phDone ∧ t.resp = some { code := .ok, digest := t.digest v } := by
  cases v with
  | e32 => exact ⟨_, hash32_admitted hp hr, oneShot32_ph .., rfl⟩
  | e64 => exact ⟨_, hash64_admitted hp hr, oneShot64_ph .., rfl⟩
  | e128 => exact ⟨_, hash128_admitted hp hr, oneShot128_ph .., rfl⟩

/-- A command refused for the phase of its engine responds E_STATE. -/
theorem nextSatisfies_eState {i : Instr} (h : exec i s = .next (raise .eState s)) :
    NextSatisfies (exec i s) fun t => t.resp = some { code := .eState, digest := [] } :=
  ⟨_, h, raise_resp _ _⟩

end FirstCommand

/-- Settles O49: the one-shots do not look at the phase, and the other operations find their engine IDLE. -/
theorem incrementalUseNeedsInit : Obligations.IncrementalUseNeedsInit := by
  intro v env o l hp hr hsrc s
  have inactive (w : Engine) : s.phase w ≠ phActive := by
    rw [reset_phase env w]
    decide
  refine ⟨hashCmd_done v hp hr, fun bs rest hs => ⟨?_, ?_⟩, ?_, ?_, ?_, ?_⟩
  · exact ⟨_, hashs64_admitted hsrc hs, oneShot64_ph .., rfl⟩
  · exact ⟨_, hashs128_admitted hsrc hs, oneShot128_ph .., rfl⟩
  · exact nextSatisfies_eState (updateCmd_wrongPhase hp hr (inactive v))
  · exact nextSatisfies_eState (updates64_wrongPhase hsrc (inactive .e64))
  · exact nextSatisfies_eState (updates128_wrongPhase hsrc (inactive .e128))
  · exact nextSatisfies_eState (finalCmd_wrongPhase (inactive v))

end Sys2Proof.Machine
end
